-- ==== Sys2Proof/Word.lean ====
section
/-! DEFINITION. The word types of the codec and the two positions a byte of an encoding can have.
A byte is 8 bits and a value 64 bits (spec/00_scope.md R6); bit 0 is the least significant (R9). -/

namespace Sys2Proof

/-- One byte of an encoding, of `OBUF` or of `MEM` (spec/00_scope.md R6, spec/20_memory.md R50). -/
abbrev Byte := BitVec 8

/-- A value of the codec, `VW = 64` bits, unsigned (spec/00_scope.md R6). -/
abbrev Word := BitVec 64

/-- Where a byte stands in an encoded sequence. The position selects the table a byte is classified by
(spec/30_encoding.md R80): `first` is offset 0, `later` is any offset from 1 on. -/
inductive Position where
  | first
  | later
  deriving DecidableEq, Repr

end Sys2Proof
end

