-- ==== Sys2Proof/Config.lean ====
section
/-! DEFINITION. What an implementation of the codec fixes (spec/00_scope.md R8) and the free values that
stand for what the spec leaves unspecified. The constants 240, 4, 128 and 7 are no parameters: the model
writes them out where they are used (spec/00_scope.md R5). -/

namespace Sys2Proof

/-- `DEC_OVF`: what `DEC.VALUE` holds for a sequence whose value does not fit 64 bits
(spec/00_scope.md R8, spec/41_decoder.md R121). -/
inductive DecOvf where
  /-- The sum modulo 2^64, the default. -/
  | wrap
  /-- An unspecified 64-bit number, a draw. -/
  | any
  deriving DecidableEq, Repr

/-- The parameters the spec leaves to the implementation (spec/00_scope.md R8). `CW` is not among them: the
offset counter and the consumed count are unbounded naturals, as R8 allows (assumption 4). -/
structure Params where
  /-- `AW`, the width in bits of a byte address of `MEM`. -/
  aw : Nat
  /-- `DEC_OVF`. -/
  decOvf : DecOvf
  deriving DecidableEq, Repr

namespace Config

/-- The parameters of `State.reset`: `DEC_OVF` at the default the spec names, `AW` a DESIGN CHOICE (assumption 2). -/
def resetParams : Params := { aw := 64, decOvf := .wrap }

/-- Free 64-bit values: the draw of `DEC_OVF = any` and the data registers a reset leaves unspecified
(spec/41_decoder.md R121, spec/10_state.md R38; assumptions 5 and 6). -/
opaque freeWord : Nat → Word

/-- Free bytes: the content of `OBUF` after a reset the host applies (spec/10_state.md R38; assumption 6). -/
opaque freeByte : Nat → Byte

/-- Free naturals, cut to an address: `DEC.START` and `DEC.END` after a reset the host applies
(spec/10_state.md R38; assumption 6). -/
opaque freeAddr : Nat → Nat

end Config

end Sys2Proof
end

