-- ==== Sys2Proof/Machine/State.lean ====
section
/-! DEFINITION. The state of the hardware: unit `ENC`, unit `DEC`, the byte space `MEM` the host owns, and
the host's side of the interface (spec/10_state.md). All of it is plain data. -/

namespace Sys2Proof.Machine

/-- `ENC.ST` (spec/10_state.md R25). -/
inductive EncSt where
  /-- No operation since reset; code 0. -/
  | idle
  /-- A value is latched, no byte emitted; code 1. -/
  | first
  /-- The prefix byte is emitted, more bytes remain; code 2. -/
  | chain
  /-- The encoding is complete; code 3. -/
  | done
  deriving DecidableEq, Repr

/-- `DEC.ST` (spec/10_state.md R28). -/
inductive DecSt where
  /-- No operation since reset; code 0. -/
  | idle
  /-- A range is latched, no byte examined; code 1. -/
  | first
  /-- The first byte was a prefix byte; code 2. -/
  | accum
  /-- The operation has ended; code 3. -/
  | done
  deriving DecidableEq, Repr

/-- `DEC.STATUS`, the only flag of the hardware (spec/10_state.md R32). -/
inductive Status where
  /-- Code 0. -/
  | ok
  /-- `OutOfBounds`; code 1. -/
  | oob
  deriving DecidableEq, Repr

/-- The registers of unit `ENC` (spec/10_state.md R22, R24, R25, R27). `ENC.LEN` is a view of `idx` (R26). -/
structure Enc where
  /-- `ENC.ST`. -/
  st : EncSt
  /-- `ENC.W`, the value register. -/
  w : Word
  /-- `ENC.IDX`, the byte sequencer's counter. -/
  idx : BitVec 4
  /-- `ENC.OBUF[0..9]`, the output buffer. -/
  obuf : Vector Byte 10
  deriving DecidableEq, Repr

/-- The registers of unit `DEC` (spec/10_state.md R28 to R32). `DEC.VALUE` and `DEC.CONSUMED` are views of
`acc` and `off` (R33). -/
structure Dec where
  /-- `DEC.ST`. -/
  st : DecSt
  /-- `DEC.START`, an address of `AW` bits. -/
  start : Nat
  /-- `DEC.END`, an address of `AW` bits, inclusive. -/
  last : Nat
  /-- `DEC.ACC`, the accumulator. -/
  acc : Word
  /-- `DEC.OFF`, a natural number (R31, assumption 4). -/
  off : Nat
  /-- `DEC.STATUS`. -/
  status : Status
  deriving DecidableEq, Repr

/-- The byte space `MEM` (spec/20_memory.md R51): the bytes that are not 0, in rising order of address. -/
abbrev Memory := List Host.Cell

/-- One action of the host, in the script notation of spec/30_encoding.md R82, and the reset of
spec/70_reset_and_hazards.md R170. -/
inductive HostAction where
  /-- `SET a, b0 b1 ...`. -/
  | set (a : Nat) (bytes : List Byte)
  /-- `ENC v`. -/
  | enc (value : Word)
  /-- `CPY a`. -/
  | cpy (a : Nat)
  /-- `DEC s, e`. -/
  | dec (start last : Nat)
  /-- The host applies reset. -/
  | reset
  deriving DecidableEq, Repr

/-- Who can move (spec/00_scope.md R13): the two units and the host. -/
inductive Agent where
  | enc
  | dec
  | host
  deriving DecidableEq, Repr

/-- The state. `params` is the configuration, which no step writes (spec/10_state.md R20, assumption 1).
`enc`, `dec` and `mem` are what spec/10_state.md and spec/20_memory.md name. `script`, `sched` and `draws` are
the model's own (assumptions 3, 5 and 7). -/
structure State where
  /-- `AW` and `DEC_OVF`. -/
  params : Params
  /-- Unit `ENC`. -/
  enc : Enc
  /-- Unit `DEC`. -/
  dec : Dec
  /-- `MEM`. -/
  mem : Memory
  /-- The host's actions still to come, the next one first. -/
  script : List HostAction
  /-- Which agents move next, the first one first; when it is empty a busy unit moves, else the host. -/
  sched : List Agent
  /-- How many free values have been used. -/
  draws : Nat
  deriving DecidableEq, Repr

/-- Why the machine stops. Neither reason is met from a state that satisfies the invariant of Safety.lean;
the spec's one failure, `OutOfBounds`, is no stop but a next state (spec/60_exceptions.md R151). -/
inductive Fault where
  /-- Raised by an encoder byte step whose index is outside `OBUF[0..9]` (spec/20_memory.md R56 says it cannot
  happen). Safe: the model stops where the spec has no such state. -/
  | noSuchObufByte (i : Nat)
  /-- Raised by a decoder byte step whose address is 2^`AW` or more (spec/20_memory.md R51, R58 say it cannot
  happen). Safe: the model stops where the spec has no such state. -/
  | noSuchAddress (a : Nat)
  deriving DecidableEq, Repr

/-- Why a move has no meaning. -/
inductive Refusal where
  /-- Raised by `exec` for an instruction without a meaning. Safe. -/
  | notModelled (mnemonic : String)
  /-- Raised by a request to a busy unit: "there is no step for it" (spec/40_encoder.md R93,
  spec/41_decoder.md R113, spec/93_implementation_defined.md U6). The running operation is not disturbed. Safe. -/
  | unitBusy (unit : Agent)
  /-- Raised by a step or a byte class whose guard is false: it is not enabled (spec/00_scope.md R12). Safe. -/
  | stepNotEnabled
  /-- Raised by a request whose address does not fit the `AW`-bit port (spec/10_state.md R41). Safe. -/
  | addressNotExpressible
  /-- Raised by a host action that reads a response outside its validity window (spec/10_state.md R42). Safe. -/
  | responseNotValid
  /-- Raised by a host action that writes outside `MEM` (spec/20_memory.md R51). Safe. -/
  | hostWriteOutsideMem (a : Nat)
  deriving DecidableEq, Repr

/-- The machine right after reset (spec/10_state.md R38). The registers R38 leaves unspecified hold zero
(DESIGN CHOICE, assumption 6), `MEM` reads as zero (DESIGN CHOICE, assumption 9), the host has no action to
come (assumption 7). -/
def State.reset : State where
  params := Config.resetParams
  enc := { st := .idle, w := 0, idx := 0, obuf := Vector.replicate 10 0 }
  dec := { st := .idle, start := 0, last := 0, acc := 0, off := 0, status := .ok }
  mem := []
  script := []
  sched := []
  draws := 0

end Sys2Proof.Machine
end

