-- ==== Sys2Proof/Machine/Flags.lean ====
section
/-! DEFINITION. The comparator outputs of the two units, which are no registers (spec/10_state.md R34), the
numeric codes of the enumerations (R25, R28, R32), and when a unit is at rest or busy. -/

namespace Sys2Proof.Machine

/-- `ENC.GE240` (spec/10_state.md R34). -/
def encGe240 (e : Enc) : Bool := decide (240#64 ≤ e.w)

/-- `ENC.GE128` (spec/10_state.md R34). -/
def encGe128 (e : Enc) : Bool := decide (128#64 ≤ e.w)

/-- `DEC.INB`, the bounds test, over the naturals (spec/10_state.md R34, R29). -/
def decInb (d : Dec) : Bool := decide (d.start + d.off ≤ d.last)

/-- `DEC.B_GE240` of the byte `b`, the prefix detector (spec/10_state.md R34). -/
def byteGe240 (b : Byte) : Bool := decide (240#8 ≤ b)

/-- `DEC.B_GE128` of the byte `b`, the continuation test (spec/10_state.md R34). -/
def byteGe128 (b : Byte) : Bool := decide (128#8 ≤ b)

/-- A unit takes a request only in `IDLE` or `DONE` (spec/10_state.md R40). -/
def encAtRest (e : Enc) : Bool := decide (e.st = .idle ∨ e.st = .done)

/-- A unit takes a request only in `IDLE` or `DONE` (spec/10_state.md R41). -/
def decAtRest (d : Dec) : Bool := decide (d.st = .idle ∨ d.st = .done)

/-- The code of `ENC.ST` (spec/10_state.md R25). -/
def encStCode : EncSt → BitVec 2
  | .idle => 0
  | .first => 1
  | .chain => 2
  | .done => 3

/-- The code of `DEC.ST` (spec/10_state.md R28). -/
def decStCode : DecSt → BitVec 2
  | .idle => 0
  | .first => 1
  | .accum => 2
  | .done => 3

/-- The code of `DEC.STATUS` (spec/10_state.md R32). -/
def statusCode : Status → BitVec 1
  | .ok => 0
  | .oob => 1

end Sys2Proof.Machine
end

