-- ==== Sys2Proof/Syntax.lean ====
section
/-! DEFINITION. The rows of spec/opcode_table.json as one inductive: two operations, twelve steps and
seven byte classes (spec/00_scope.md R14 says what "instruction" means on this hardware). -/

namespace Sys2Proof

/-- One constructor per row of the opcode table. An operation carries its request record
(spec/30_encoding.md R81), a `START` step the request it latches, the other steps nothing (their operands
are registers and the byte they read), a byte class the fields of its byte (spec/30_encoding.md R80). -/
inductive Instr where
  /-- `ENCODE` (spec/40_encoder.md R91). -/
  | encode (value : Word)
  /-- `DECODE` (spec/41_decoder.md R111); `last` is the request's `END`, inclusive. -/
  | decode (start last : Nat)
  /-- `ENC.START` (spec/40_encoder.md R93). -/
  | encStart (value : Word)
  /-- `ENC.SINGLE` (spec/40_encoder.md R94). -/
  | encSingle
  /-- `ENC.PREFIX` (spec/40_encoder.md R95). -/
  | encPrefix
  /-- `ENC.CONT` (spec/40_encoder.md R96). -/
  | encCont
  /-- `ENC.FINAL` (spec/40_encoder.md R97). -/
  | encFinal
  /-- `DEC.START` (spec/41_decoder.md R113). -/
  | decStart (start last : Nat)
  /-- `DEC.OOB0` (spec/41_decoder.md R114). -/
  | decOob0
  /-- `DEC.SINGLE` (spec/41_decoder.md R115). -/
  | decSingle
  /-- `DEC.PREFIX` (spec/41_decoder.md R116). -/
  | decPrefix
  /-- `DEC.OOBK` (spec/41_decoder.md R117). -/
  | decOobk
  /-- `DEC.CONT` (spec/41_decoder.md R118). -/
  | decCont
  /-- `DEC.FINAL` (spec/41_decoder.md R119). -/
  | decFinal
  /-- Class row `SINGLE.A`, byte `0vvvvvvv`; `v` is the whole byte (spec/30_encoding.md R80). -/
  | byteSingleA (v : Byte)
  /-- Class row `SINGLE.B`, byte `10vvvvvv`; `v` is the whole byte. -/
  | byteSingleB (v : Byte)
  /-- Class row `SINGLE.C`, byte `110vvvvv`; `v` is the whole byte. -/
  | byteSingleC (v : Byte)
  /-- Class row `SINGLE.D`, byte `1110vvvv`; `v` is the whole byte. -/
  | byteSingleD (v : Byte)
  /-- Class `PREFIX`, byte `1111nnnn`; `n` is bits 3:0. -/
  | bytePrefix (n : BitVec 4)
  /-- Class `CONT`, byte `1ppppppp`; `p` is bits 6:0. -/
  | byteCont (p : BitVec 7)
  /-- Class `FINAL`, byte `0ppppppp`; `p` is bits 6:0. -/
  | byteFinal (p : BitVec 7)
  deriving DecidableEq, Repr

end Sys2Proof
end

