-- ==== Sys2Proof/WellFormed.lean ====
section
/-! DEFINITION. Which terms of `Instr` the hardware can express: a request's addresses fit the `AW`-bit
ports (spec/10_state.md R41) and the whole-byte field of a `SINGLE` row lies in its row
(spec/30_encoding.md R80). -/

namespace Sys2Proof

/-- An address the `AW`-bit request ports can carry (spec/20_memory.md R51). -/
def addressFits (p : Params) (a : Nat) : Bool := decide (a < 2 ^ p.aw)

/-- `byte & mask == match`, the selection of a class row (spec/30_encoding.md R80). -/
def inRow (mask pattern b : Byte) : Bool := b &&& mask == pattern

/-- The checks on an instruction, for the parameters `p`. -/
def wellFormed (p : Params) : Instr → Bool
  | .encode _ => true
  | .decode a e => addressFits p a && addressFits p e
  | .encStart _ => true
  | .encSingle => true
  | .encPrefix => true
  | .encCont => true
  | .encFinal => true
  | .decStart a e => addressFits p a && addressFits p e
  | .decOob0 => true
  | .decSingle => true
  | .decPrefix => true
  | .decOobk => true
  | .decCont => true
  | .decFinal => true
  | .byteSingleA v => inRow 0x80 0x00 v
  | .byteSingleB v => inRow 0xC0 0x80 v
  | .byteSingleC v => inRow 0xE0 0xC0 v
  | .byteSingleD v => inRow 0xF0 0xE0 v
  | .bytePrefix _ => true
  | .byteCont _ => true
  | .byteFinal _ => true

end Sys2Proof
end

