-- ==== Sys2Proof/Decode.lean ====
section
/-! DEFINITION. The decoder of bytes into class rows and, after it, the encoder of class rows into bytes
(spec/30_encoding.md R71, R72, R80). What this hardware decodes is the varint byte format
(spec/00_scope.md R14): the operations and the steps are selected by the unit and its state, not by bits
(R81), so they have no word. -/

namespace Sys2Proof

/-- The class row of a byte at offset 0 (spec/30_encoding.md R71, R80). Every byte value is legal (R73, R78). -/
def decodeFirst (b : Byte) : Instr :=
  if inRow 0x80 0x00 b then .byteSingleA b
  else if inRow 0xC0 0x80 b then .byteSingleB b
  else if inRow 0xE0 0xC0 b then .byteSingleC b
  else if inRow 0xF0 0xE0 b then .byteSingleD b
  else .bytePrefix (b.extractLsb' 0 4)

/-- The class row of a byte at an offset of 1 or more (spec/30_encoding.md R72, R80). -/
def decodeLater (b : Byte) : Instr :=
  if inRow 0x80 0x80 b then .byteCont (b.extractLsb' 0 7) else .byteFinal (b.extractLsb' 0 7)

/-- The class row of a byte, by its position (spec/30_encoding.md R80). -/
def decodeByte : Position → Byte → Instr
  | .first, b => decodeFirst b
  | .later, b => decodeLater b

/-- Why a list of bytes is not decoded. No byte value is refused (spec/30_encoding.md R78), so the only
reasons are that bytes are missing. -/
inductive DecodeError where
  /-- There is no byte to classify. -/
  | noByte
  /-- The bytes end before a final byte: they are of the form `P C*` (spec/30_encoding.md R73). -/
  | unterminated
  deriving DecidableEq, Repr

/-- Decodes one class row from the front of a list of bytes, with the bytes after it. -/
def decode (pos : Position) : List Byte → Except DecodeError (Instr × List Byte)
  | [] => .error .noByte
  | b :: rest => .ok (decodeByte pos b, rest)

/-- The part of a sequence after its prefix byte, `C* F` (spec/30_encoding.md R73, R77). -/
def decodeChain : List Byte → Except DecodeError (List Instr × List Byte)
  | [] => .error .unterminated
  | b :: rest =>
    if b < 128#8 then .ok ([decodeLater b], rest)
    else match decodeChain rest with
      | .ok (is, after) => .ok (decodeLater b :: is, after)
      | .error e => .error e

/-- Decodes one whole terminated sequence, `S` or `P C* F`, from the front of a list of bytes: its class
rows and the bytes after it (spec/30_encoding.md R73, R77). -/
def decodeSeq : List Byte → Except DecodeError (List Instr × List Byte)
  | [] => .error .noByte
  | b :: rest =>
    if b < 240#8 then .ok ([decodeFirst b], rest)
    else match decodeChain rest with
      | .ok (is, after) => .ok (decodeFirst b :: is, after)
      | .error e => .error e

/-- The instruction of the opcode table whose bits are `w`. A row's bits are one byte, and one byte alone
stands at offset 0, so it is classified there; the later-byte rows share their bits with first-byte rows
and are told apart by position only (assumption 8). -/
def decodeTableWord (nbits w : Nat) : Option Instr :=
  match decode .first (if nbits = 0 then [] else [BitVec.ofNat 8 (w % 2 ^ nbits)]) with
  | .ok (i, _) => some i
  | .error _ => none

/-! The encoder. -/

/-- The prefix byte `1111nnnn` (spec/30_encoding.md R71, spec/40_encoder.md R91). -/
def prefixByte (n : BitVec 4) : Byte := 0xF0#8 ||| n.setWidth 8

/-- The continuation byte `1ppppppp` (spec/30_encoding.md R72, spec/40_encoder.md R91). -/
def contByte (p : BitVec 7) : Byte := 0x80#8 ||| p.setWidth 8

/-- The final byte `0ppppppp` (spec/30_encoding.md R72, spec/40_encoder.md R91). -/
def finalByte (p : BitVec 7) : Byte := p.setWidth 8

/-- The byte of a class row; the operations and the steps have no bits (spec/30_encoding.md R80, R81). -/
def encode : Instr → List Byte
  | .encode _ => []
  | .decode _ _ => []
  | .encStart _ => []
  | .encSingle => []
  | .encPrefix => []
  | .encCont => []
  | .encFinal => []
  | .decStart _ _ => []
  | .decOob0 => []
  | .decSingle => []
  | .decPrefix => []
  | .decOobk => []
  | .decCont => []
  | .decFinal => []
  | .byteSingleA v => [v]
  | .byteSingleB v => [v]
  | .byteSingleC v => [v]
  | .byteSingleD v => [v]
  | .bytePrefix n => [prefixByte n]
  | .byteCont p => [contByte p]
  | .byteFinal p => [finalByte p]

/-- The position a class row stands at; `none` for an operation or a step (spec/30_encoding.md R80). -/
def position : Instr → Option Position
  | .encode _ => none
  | .decode _ _ => none
  | .encStart _ => none
  | .encSingle => none
  | .encPrefix => none
  | .encCont => none
  | .encFinal => none
  | .decStart _ _ => none
  | .decOob0 => none
  | .decSingle => none
  | .decPrefix => none
  | .decOobk => none
  | .decCont => none
  | .decFinal => none
  | .byteSingleA _ => some .first
  | .byteSingleB _ => some .first
  | .byteSingleC _ => some .first
  | .byteSingleD _ => some .first
  | .bytePrefix _ => some .first
  | .byteCont _ => some .later
  | .byteFinal _ => some .later

/-- The decoder step a class row selects, the table's column "decoder step" (spec/30_encoding.md R80). -/
def decoderStep : Instr → Option Instr
  | .encode _ => none
  | .decode _ _ => none
  | .encStart _ => none
  | .encSingle => none
  | .encPrefix => none
  | .encCont => none
  | .encFinal => none
  | .decStart _ _ => none
  | .decOob0 => none
  | .decSingle => none
  | .decPrefix => none
  | .decOobk => none
  | .decCont => none
  | .decFinal => none
  | .byteSingleA _ => some .decSingle
  | .byteSingleB _ => some .decSingle
  | .byteSingleC _ => some .decSingle
  | .byteSingleD _ => some .decSingle
  | .bytePrefix _ => some .decPrefix
  | .byteCont _ => some .decCont
  | .byteFinal _ => some .decFinal

/-- The encoder step that emits a byte of a class row, the table's column "encoder step that emits it"
(spec/30_encoding.md R80). -/
def encoderStep : Instr → Option Instr
  | .encode _ => none
  | .decode _ _ => none
  | .encStart _ => none
  | .encSingle => none
  | .encPrefix => none
  | .encCont => none
  | .encFinal => none
  | .decStart _ _ => none
  | .decOob0 => none
  | .decSingle => none
  | .decPrefix => none
  | .decOobk => none
  | .decCont => none
  | .decFinal => none
  | .byteSingleA _ => some .encSingle
  | .byteSingleB _ => some .encSingle
  | .byteSingleC _ => some .encSingle
  | .byteSingleD _ => some .encSingle
  | .bytePrefix _ => some .encPrefix
  | .byteCont _ => some .encCont
  | .byteFinal _ => some .encFinal

end Sys2Proof
end

