-- ==== Sys2Proof/Machine/Operands.lean ====
section
/-! DEFINITION. The operand forms: the bytes the continuation-bit generator makes of `ENC.W`, the working
values that follow, and the term the byte accumulator adds (spec/40_encoder.md R94 to R97, R102;
spec/41_decoder.md R118, R122). -/

namespace Sys2Proof.Machine

/-- `ENC.W[7:0]`, the byte of a single value (spec/40_encoder.md R94). -/
def singleOf (w : Word) : Byte := w.extractLsb' 0 8

/-- `0xF0 | ENC.W[3:0]` (spec/40_encoder.md R95). -/
def prefixOf (w : Word) : Byte := prefixByte (w.extractLsb' 0 4)

/-- `0x80 | ENC.W[6:0]` (spec/40_encoder.md R96). -/
def contOf (w : Word) : Byte := contByte (w.extractLsb' 0 7)

/-- `ENC.W[7:0]`, the final byte (spec/40_encoder.md R97). -/
def finalOf (w : Word) : Byte := w.extractLsb' 0 8

/-- `(ENC.W − 240) >> 4`; the guard makes the subtraction exact (spec/40_encoder.md R95). -/
def workAfterPrefix (w : Word) : Word := (w - 240#64) >>> 4

/-- `(ENC.W − 128) >> 7`; the guard makes the subtraction exact (spec/40_encoder.md R96). -/
def workAfterCont (w : Word) : Word := (w - 128#64) >>> 7

/-- `SH(k) = 4 + 7·(k − 1)`, for `k ≥ 1` (spec/30_encoding.md R74). -/
def shiftOf (k : Nat) : Nat := 4 + 7 * (k - 1)

/-- `B << SH(k)`, over the naturals, the byte unmasked (spec/41_decoder.md R118, spec/00_scope.md R10). -/
def shiftedByte (b : Byte) (k : Nat) : Nat := b.toNat * 2 ^ shiftOf k

/-- The accumulator after the byte `b` at offset `k`, and the count of free values used. A sum that fits 64
bits is exact under either parameter; one that does not "wraps or draws" (spec/60_exceptions.md R153,
spec/41_decoder.md R118, R121): under `wrap` it is cut to 64 bits, under `any` it is a free value (assumption 5). -/
def accumulate (o : DecOvf) (acc : Word) (b : Byte) (k draws : Nat) : Word × Nat :=
  if acc.toNat + shiftedByte b k < 2 ^ 64 then (BitVec.ofNat 64 (acc.toNat + shiftedByte b k), draws)
  else match o with
    | .wrap => (BitVec.ofNat 64 (acc.toNat + shiftedByte b k), draws)
    | .any => (Config.freeWord draws, draws + 1)

end Sys2Proof.Machine
end

