-- ==== Sys2Proof/Machine/Ops.lean ====
section
/-! DEFINITION. The named operations over the state, shared by the meanings: reads and writes of `MEM`, the
write of one byte of `OBUF`, taking a request, handling one byte in `DEC`, the one exception, and reset. -/

namespace Sys2Proof.Machine

/-- The answer of a move. -/
abbrev Answer := Host.Outcome State Fault Refusal

/-! Updates of one field. -/

/-- Writes the registers of `ENC`. -/
def State.withEnc (s : State) (e : Enc) : State := { s with enc := e }

/-- Writes the registers of `DEC`. -/
def State.withDec (s : State) (d : Dec) : State := { s with dec := d }

/-- Writes `MEM`. -/
def State.withMem (s : State) (m : Memory) : State := { s with mem := m }

/-- Writes the host's script. -/
def State.withScript (s : State) (l : List HostAction) : State := { s with script := l }

/-- Writes the schedule. -/
def State.withSched (s : State) (l : List Agent) : State := { s with sched := l }

/-- Writes the count of free values used. -/
def State.withDraws (s : State) (n : Nat) : State := { s with draws := n }

/-! The byte space `MEM`. -/

/-- `MEM[a]`; an address that is not listed reads as 0 (spec/20_memory.md R51, assumption 9). -/
def memRead : Memory → Nat → Byte
  | [], _ => 0#8
  | (c, x) :: m, a => if c = a then x else memRead m a

/-- `MEM[a] <- b`, keeping the canonical form: rising addresses, no byte 0. -/
def memWrite : Memory → Nat → Byte → Memory
  | [], a, b => if b = 0#8 then [] else [(a, b)]
  | (c, x) :: m, a, b =>
    if a < c then (if b = 0#8 then (c, x) :: m else (a, b) :: (c, x) :: m)
    else if a = c then (if b = 0#8 then m else (a, b) :: m)
    else (c, x) :: memWrite m a b

/-- Writes `bytes` to `MEM[a]`, `MEM[a+1]`, … (spec/30_encoding.md R82). -/
def memWriteList : Memory → Nat → List Byte → Memory
  | m, _, [] => m
  | m, a, b :: bs => memWriteList (memWrite m a b) (a + 1) bs

/-- The addresses of `m` are above `low` in rising order and below `top`, and no byte is 0. -/
def memSorted (top : Nat) : Nat → Memory → Bool
  | _, [] => true
  | low, (c, x) :: m => decide (low ≤ c) && decide (c < top) && decide (x ≠ 0#8) && memSorted top (c + 1) m

/-- The canonical form of `MEM` for the parameters `p`: every address is one of the 2^`AW` (spec/20_memory.md R51). -/
def Memory.wf (p : Params) (m : Memory) : Bool := memSorted (2 ^ p.aw) 0 m

/-- `MemRead(a, 1)` (spec/00_scope.md R11): `none` where `MEM` has no such address (spec/20_memory.md R51). -/
def memByte? (s : State) (a : Nat) : Option Byte :=
  if addressFits s.params a then some (memRead s.mem a) else none

/-! The encoder. -/

/-- Writes one byte of `OBUF` together with the other registers of `ENC`; the index must be one of `OBUF`
(spec/10_state.md R27, spec/20_memory.md R56). -/
def encEmit (s : State) (i : Nat) (b : Byte) (w : Word) (idx : BitVec 4) (st : EncSt) : Answer :=
  if h : i < 10 then .next (s.withEnc { st := st, w := w, idx := idx, obuf := s.enc.obuf.set i b h })
  else .fault (.noSuchObufByte i)

/-! The decoder. -/

/-- `raise OutOfBounds`: "in full: `DEC.STATUS <- OOB; DEC.ST <- DONE`" (spec/60_exceptions.md R151). This is
all of taking the hardware's one exception; there is no return from it but the next `DEC.START`, which sets
the status back to `OK` (spec/60_exceptions.md R157, `decAccept`). -/
def raiseOutOfBounds (s : State) : State := s.withDec { s.dec with status := .oob, st := .done }

/-- The writes of `DEC.START` (spec/41_decoder.md R113), which also end a failure's standing (R157). -/
def decAccept (s : State) (start last : Nat) : State :=
  s.withDec { s.dec with start := start, last := last, off := 0, status := .ok, st := .first }

/-- Reads the byte at `a` for a unit in the state `st`, in bounds only, and hands it on (spec/20_memory.md R55). -/
def decReadByte (st : DecSt) (a : Nat) (s : State) (handle : Byte → State → Answer) : Answer :=
  if s.dec.st = st ∧ a ≤ s.dec.last then
    match memByte? s a with
    | some b => handle b s
    | none => .fault (.noSuchAddress a)
  else .refused .stepNotEnabled

/-- The first byte `b` is a value (spec/41_decoder.md R115). -/
def takeSingle (b : Byte) (s : State) : Answer :=
  if s.dec.st = .first ∧ s.dec.start ≤ s.dec.last ∧ byteGe240 b = false then
    .next (s.withDec { s.dec with acc := b.setWidth 64, st := .done })
  else .refused .stepNotEnabled

/-- The first byte `b` is a prefix byte, loaded unmasked (spec/41_decoder.md R116). -/
def takePrefix (b : Byte) (s : State) : Answer :=
  if s.dec.st = .first ∧ s.dec.start ≤ s.dec.last ∧ byteGe240 b = true then
    .next (s.withDec { s.dec with acc := b.setWidth 64, off := 1, st := .accum })
  else .refused .stepNotEnabled

/-- The later byte `b` is a continuation byte (spec/41_decoder.md R118). -/
def takeCont (b : Byte) (s : State) : Answer :=
  if s.dec.st = .accum ∧ decInb s.dec = true ∧ byteGe128 b = true then
    let r := accumulate s.params.decOvf s.dec.acc b s.dec.off s.draws
    .next ((s.withDec { s.dec with acc := r.1, off := s.dec.off + 1 }).withDraws r.2)
  else .refused .stepNotEnabled

/-- The later byte `b` is the final byte (spec/41_decoder.md R119). -/
def takeFinal (b : Byte) (s : State) : Answer :=
  if s.dec.st = .accum ∧ decInb s.dec = true ∧ byteGe128 b = false then
    let r := accumulate s.params.decOvf s.dec.acc b s.dec.off s.draws
    .next ((s.withDec { s.dec with acc := r.1, st := .done }).withDraws r.2)
  else .refused .stepNotEnabled

/-! Reset. -/

/-- The reset the host applies, at any time (spec/70_reset_and_hazards.md R170): the control registers take
the values of spec/10_state.md R38, the registers R38 leaves unspecified take free values (assumption 6). -/
def resetUnits (s : State) : State :=
  { s with
    enc := { st := .idle, w := Config.freeWord s.draws, idx := 0,
             obuf := Vector.ofFn fun i => Config.freeByte (s.draws + i.val) }
    dec := { st := .idle, start := Config.freeAddr s.draws % 2 ^ s.params.aw,
             last := Config.freeAddr (s.draws + 1) % 2 ^ s.params.aw,
             acc := Config.freeWord (s.draws + 1), off := 0, status := .ok }
    draws := s.draws + 10 }

end Sys2Proof.Machine
end

