-- ==== Sys2Proof/Machine/ByteClass.lean ====
section
/-! DEFINITION. The meanings of the byte classes: what `DEC` does with a byte of the class at its position, "the
semantics of each row is in the step rules named" (spec/30_encoding.md R80). The byte is the operand here,
where the decoder's step rows read it from `MEM`. -/

namespace Sys2Proof.Machine

/-- Class row `SINGLE.A` (spec/30_encoding.md R80, spec/41_decoder.md R115). -/
def execByteSingleA (v : Byte) (s : State) : Answer := takeSingle v s

/-- Class row `SINGLE.B` (spec/30_encoding.md R80, spec/41_decoder.md R115). -/
def execByteSingleB (v : Byte) (s : State) : Answer := takeSingle v s

/-- Class row `SINGLE.C` (spec/30_encoding.md R80, spec/41_decoder.md R115). -/
def execByteSingleC (v : Byte) (s : State) : Answer := takeSingle v s

/-- Class row `SINGLE.D` (spec/30_encoding.md R80, spec/41_decoder.md R115). -/
def execByteSingleD (v : Byte) (s : State) : Answer := takeSingle v s

/-- Class `PREFIX` (spec/30_encoding.md R80, spec/41_decoder.md R116). -/
def execBytePrefix (n : BitVec 4) (s : State) : Answer := takePrefix (prefixByte n) s

/-- Class `CONT` (spec/30_encoding.md R80, spec/41_decoder.md R118). -/
def execByteCont (p : BitVec 7) (s : State) : Answer := takeCont (contByte p) s

/-- Class `FINAL` (spec/30_encoding.md R80, spec/41_decoder.md R119). -/
def execByteFinal (p : BitVec 7) (s : State) : Answer := takeFinal (finalByte p) s

end Sys2Proof.Machine
end

