-- ==== Sys2Proof/Machine/Format.lean ====
section
/-! DEFINITION. The two operations as functions (spec/40_encoder.md R91, spec/41_decoder.md R111), and the
terms the laws of the codec are stated in: terminated sequences, their natural value, the length classes
(spec/30_encoding.md R73 to R75, spec/42_codec_laws.md R132). -/

namespace Sys2Proof.Machine

/-! The encoder as a function. -/

/-- The loop and the final byte of `ENC_SEQ`: the bytes for the working value `w`. Each turn divides `w` by
128, so the fuel of 64 turns is never used up for a 64-bit value (spec/40_encoder.md R91, R98). -/
def encChain : Nat → Nat → List Byte
  | 0, w => [BitVec.ofNat 8 w]
  | fuel + 1, w =>
    if 128 ≤ w then contByte (BitVec.ofNat 7 w) :: encChain fuel ((w - 128) / 2 ^ 7) else [BitVec.ofNat 8 w]

/-- `ENC_SEQ(v)` (spec/40_encoder.md R91). -/
def encSeq (v : Nat) : List Byte :=
  if v < 240 then [BitVec.ofNat 8 v]
  else prefixByte (BitVec.ofNat 4 v) :: encChain 64 ((v - 240) / 2 ^ 4)

/-- The last working value of the loop of `ENC_SEQ`. -/
def encChainLast : Nat → Nat → Nat
  | 0, w => w
  | fuel + 1, w => if 128 ≤ w then encChainLast fuel ((w - 128) / 2 ^ 7) else w

/-- What `ENC.W` holds in `DONE`: "the last working value" (spec/10_state.md R22). -/
def encLastWork (v : Nat) : Nat := if v < 240 then v else encChainLast 64 ((v - 240) / 2 ^ 4)

/-- `OBUF` with the bytes `bs` written from index `i` on; bytes past the end of `OBUF` are not written
(no encoding has them, spec/40_encoder.md R98). -/
def obufWrite (o : Vector Byte 10) : Nat → List Byte → Vector Byte 10
  | _, [] => o
  | i, b :: bs => obufWrite (o.setIfInBounds i b) (i + 1) bs

/-! The decoder as a function. -/

/-- How a `DECODE` ends: the failure or the success, and what the registers and the count of free values hold. -/
structure DecodeEnd where
  /-- `DEC.STATUS`. -/
  status : Status
  /-- `DEC.ACC`. -/
  acc : Word
  /-- `DEC.OFF`. -/
  off : Nat
  /-- The free values used. -/
  draws : Nat
  deriving DecidableEq, Repr

/-- The loop of `DECODE` (spec/41_decoder.md R111) from offset `k` on, `left = END + 1 − (START + k)` bytes
being left in the range: none left is the failed bounds test `START + k > END`, made before the read. -/
def decodeLoop (o : DecOvf) (m : Memory) (start : Nat) : Nat → Nat → Word → Nat → DecodeEnd
  | 0, k, acc, draws => { status := .oob, acc := acc, off := k, draws := draws }
  | left + 1, k, acc, draws =>
    if byteGe128 (memRead m (start + k)) then
      decodeLoop o m start left (k + 1) (accumulate o acc (memRead m (start + k)) k draws).1
        (accumulate o acc (memRead m (start + k)) k draws).2
    else { status := .ok, acc := (accumulate o acc (memRead m (start + k)) k draws).1, off := k,
           draws := (accumulate o acc (memRead m (start + k)) k draws).2 }

/-- `DECODE(MEM, START, END)` (spec/41_decoder.md R111). `stale` is what `DEC.ACC` held before: an empty range
leaves it as it was (spec/41_decoder.md R114). -/
def decodeRange (o : DecOvf) (m : Memory) (start last : Nat) (stale : Word) (draws : Nat) : DecodeEnd :=
  if last < start then { status := .oob, acc := stale, off := 0, draws := draws }
  else if byteGe240 (memRead m start) then
    decodeLoop o m start (last - start) 1 ((memRead m start).setWidth 64) draws
  else { status := .ok, acc := (memRead m start).setWidth 64, off := 0, draws := draws }

/-- The addresses the loop of `DECODE` reads, in order (spec/20_memory.md R55). -/
def loopReads (m : Memory) (start : Nat) : Nat → Nat → List Nat
  | 0, _ => []
  | left + 1, k =>
    if byteGe128 (memRead m (start + k)) then (start + k) :: loopReads m start left (k + 1) else [start + k]

/-- The addresses `DECODE(MEM, START, END)` reads, in order (spec/20_memory.md R55). -/
def decodeReads (m : Memory) (start last : Nat) : List Nat :=
  if last < start then []
  else if byteGe240 (memRead m start) then start :: loopReads m start (last - start) 1
  else [start]

/-! Terminated sequences and their values. -/

/-- `C* F` (spec/30_encoding.md R73). -/
def chainTerminated : List Byte → Bool
  | [] => false
  | b :: bs => if byteGe128 b then chainTerminated bs else bs.isEmpty

/-- A terminated sequence: `S` or `P C* F` (spec/30_encoding.md R73). -/
def terminated : List Byte → Bool
  | [] => false
  | b :: bs => if byteGe240 b then chainTerminated bs else bs.isEmpty

/-- The terms of `NAT(s)` from offset `k` on (spec/30_encoding.md R74). -/
def natChain : Nat → List Byte → Nat
  | _, [] => 0
  | k, b :: bs => shiftedByte b k + natChain (k + 1) bs

/-- `NAT(s)`, over the naturals, each byte whole (spec/30_encoding.md R74). -/
def natOf : List Byte → Nat
  | [] => 0
  | b :: bs => b.toNat + natChain 1 bs

/-- The payload bits of a sequence of Format M from offset `k` on: `p_k` in bits `SH(k)+6 : SH(k)`
(spec/30_encoding.md R75). -/
def payloadChain : Nat → List Byte → Nat
  | _, [] => 0
  | k, b :: bs => b.toNat % 128 * 2 ^ shiftOf k + payloadChain (k + 1) bs

/-- `PAYLOAD(s)` of a sequence of Format M: `n0` in bits 3:0 and the `p_k` above it (spec/30_encoding.md R75). -/
def payloadOf : List Byte → Nat
  | [] => 0
  | b :: bs => b.toNat % 16 + payloadChain 1 bs

/-- The bytes `MEM[a .. a + n − 1]`. -/
def memSlice (m : Memory) (a n : Nat) : List Byte := (List.range n).map fun i => memRead m (a + i)

/-! Length classes. -/

/-- `CAP(m)` (spec/42_codec_laws.md R132). -/
def cap : Nat → Nat
  | 0 => 0
  | m + 1 => 128 + 128 * cap m

/-- `MIN(n)`, the least value of length class `n`: `MIN(1) = 0` and the sum of spec/30_encoding.md R75 for
`n ≥ 2` (spec/40_encoder.md R101). -/
def minValue : Nat → Nat
  | 0 => 0
  | 1 => 0
  | n + 2 => 240 + ((List.range n).map fun j => 2 ^ (4 + 7 * (j + 1))).sum

end Sys2Proof.Machine
end

