-- ==== Sys2Proof/Machine/Decoder.lean ====
section
/-! DEFINITION. The meanings of the decoder's rows: the steps of `DEC` and the operation `DECODE`
(spec/41_decoder.md). -/

namespace Sys2Proof.Machine

/-- `DEC.START` (spec/41_decoder.md R113). A request to a busy unit is not taken (R113, spec/70_reset_and_hazards.md R177). -/
def execDecStart (start last : Nat) (s : State) : Answer :=
  if decAtRest s.dec then
    if addressFits s.params start && addressFits s.params last then .next (decAccept s start last)
    else .refused .addressNotExpressible
  else .refused (.unitBusy .dec)

/-- `DEC.OOB0` (spec/41_decoder.md R114). -/
def execDecOob0 (s : State) : Answer :=
  if s.dec.st = .first ∧ s.dec.last < s.dec.start then .next (raiseOutOfBounds s)
  else .refused .stepNotEnabled

/-- `DEC.SINGLE` (spec/41_decoder.md R115). -/
def execDecSingle (s : State) : Answer := decReadByte .first s.dec.start s takeSingle

/-- `DEC.PREFIX` (spec/41_decoder.md R116). -/
def execDecPrefix (s : State) : Answer := decReadByte .first s.dec.start s takePrefix

/-- `DEC.OOBK` (spec/41_decoder.md R117). -/
def execDecOobk (s : State) : Answer :=
  if s.dec.st = .accum ∧ decInb s.dec = false then .next (raiseOutOfBounds s)
  else .refused .stepNotEnabled

/-- `DEC.CONT` (spec/41_decoder.md R118). -/
def execDecCont (s : State) : Answer := decReadByte .accum (s.dec.start + s.dec.off) s takeCont

/-- `DEC.FINAL` (spec/41_decoder.md R119). -/
def execDecFinal (s : State) : Answer := decReadByte .accum (s.dec.start + s.dec.off) s takeFinal

/-- `DECODE`, the whole operation as a function (spec/41_decoder.md R111, R123). -/
def execDecode (start last : Nat) (s : State) : Answer :=
  if decAtRest s.dec then
    if addressFits s.params start && addressFits s.params last then
      let r := decodeRange s.params.decOvf s.mem start last s.dec.acc s.draws
      .next ((s.withDec { st := .done, start := start, last := last, acc := r.acc, off := r.off,
                          status := r.status }).withDraws r.draws)
    else .refused .addressNotExpressible
  else .refused (.unitBusy .dec)

end Sys2Proof.Machine
end

