-- ==== Sys2Proof/Machine/Encoder.lean ====
section
/-! DEFINITION. The meanings of the encoder's rows: the steps of `ENC` and the operation `ENCODE`
(spec/40_encoder.md). -/

namespace Sys2Proof.Machine

/-- `ENC.START` (spec/40_encoder.md R93). A request to a busy unit is not taken (R93, spec/70_reset_and_hazards.md R177). -/
def execEncStart (value : Word) (s : State) : Answer :=
  if encAtRest s.enc then .next (s.withEnc { s.enc with w := value, idx := 0, st := .first })
  else .refused (.unitBusy .enc)

/-- `ENC.SINGLE` (spec/40_encoder.md R94). -/
def execEncSingle (s : State) : Answer :=
  if s.enc.st = .first ∧ encGe240 s.enc = false then encEmit s 0 (singleOf s.enc.w) s.enc.w 1 .done
  else .refused .stepNotEnabled

/-- `ENC.PREFIX` (spec/40_encoder.md R95). -/
def execEncPrefix (s : State) : Answer :=
  if s.enc.st = .first ∧ encGe240 s.enc = true then
    encEmit s 0 (prefixOf s.enc.w) (workAfterPrefix s.enc.w) 1 .chain
  else .refused .stepNotEnabled

/-- `ENC.CONT` (spec/40_encoder.md R96). -/
def execEncCont (s : State) : Answer :=
  if s.enc.st = .chain ∧ encGe128 s.enc = true then
    encEmit s s.enc.idx.toNat (contOf s.enc.w) (workAfterCont s.enc.w) (s.enc.idx + 1) .chain
  else .refused .stepNotEnabled

/-- `ENC.FINAL` (spec/40_encoder.md R97). -/
def execEncFinal (s : State) : Answer :=
  if s.enc.st = .chain ∧ encGe128 s.enc = false then
    encEmit s s.enc.idx.toNat (finalOf s.enc.w) s.enc.w (s.enc.idx + 1) .done
  else .refused .stepNotEnabled

/-- `ENCODE`, the whole operation as a function (spec/40_encoder.md R91, R99): the bytes of `ENC_SEQ(VALUE)` in
`OBUF`, the rest of `OBUF` as it was, the length in `ENC.IDX`, the last working value in `ENC.W`. -/
def execEncode (value : Word) (s : State) : Answer :=
  if encAtRest s.enc then
    .next (s.withEnc { st := .done
                       w := BitVec.ofNat 64 (encLastWork value.toNat)
                       idx := BitVec.ofNat 4 (encSeq value.toNat).length
                       obuf := obufWrite s.enc.obuf 0 (encSeq value.toNat) })
  else .refused (.unitBusy .enc)

end Sys2Proof.Machine
end

