-- ==== Sys2Proof/Machine/Dispatch.lean ====
section
/-! DEFINITION. The meaning of each instruction: one arm per row of the opcode table. -/

namespace Sys2Proof.Machine

def exec (i : Instr) (s : State) : Host.Outcome State Fault Refusal :=
  match i with
  | .encode value => Sys2Proof.Machine.execEncode value s
  | .decode start last => Sys2Proof.Machine.execDecode start last s
  | .encStart value => Sys2Proof.Machine.execEncStart value s
  | .encSingle => Sys2Proof.Machine.execEncSingle s
  | .encPrefix => Sys2Proof.Machine.execEncPrefix s
  | .encCont => Sys2Proof.Machine.execEncCont s
  | .encFinal => Sys2Proof.Machine.execEncFinal s
  | .decStart start last => Sys2Proof.Machine.execDecStart start last s
  | .decOob0 => Sys2Proof.Machine.execDecOob0 s
  | .decSingle => Sys2Proof.Machine.execDecSingle s
  | .decPrefix => Sys2Proof.Machine.execDecPrefix s
  | .decOobk => Sys2Proof.Machine.execDecOobk s
  | .decCont => Sys2Proof.Machine.execDecCont s
  | .decFinal => Sys2Proof.Machine.execDecFinal s
  | .byteSingleA v => Sys2Proof.Machine.execByteSingleA v s
  | .byteSingleB v => Sys2Proof.Machine.execByteSingleB v s
  | .byteSingleC v => Sys2Proof.Machine.execByteSingleC v s
  | .byteSingleD v => Sys2Proof.Machine.execByteSingleD v s
  | .bytePrefix n => Sys2Proof.Machine.execBytePrefix n s
  | .byteCont p => Sys2Proof.Machine.execByteCont p s
  | .byteFinal p => Sys2Proof.Machine.execByteFinal p s

end Sys2Proof.Machine
end

