-- ==== Sys2Proof/Machine/Views.lean ====
section
/-! DEFINITION. What the host can read: the read-only views and the two responses (spec/10_state.md R26, R27,
R33, R40 to R42). A read outside its validity window has no value (R42, assumption 10). -/

namespace Sys2Proof.Machine

/-- `ENC.LEN` (spec/10_state.md R26). -/
def encLen? (e : Enc) : Option (BitVec 4) := if e.st = .done then some e.idx else none

/-- The host's read of `ENC.OBUF[i]` (spec/10_state.md R27, R42). -/
def encByte? (e : Enc) (i : Nat) : Option Byte :=
  if e.st = .done ∧ i < e.idx.toNat then e.obuf[i]? else none

/-- The encoder's response, `OBUF[0..LEN − 1]` (spec/10_state.md R40). -/
def encResponse? (e : Enc) : Option (List Byte) :=
  if e.st = .done then some (e.obuf.toList.take e.idx.toNat) else none

/-- The host's read of `DEC.STATUS` (spec/10_state.md R32, R42). -/
def decStatus? (d : Dec) : Option Status := if d.st = .done then some d.status else none

/-- `DEC.VALUE` (spec/10_state.md R33). -/
def decValue? (d : Dec) : Option Word := if d.st = .done ∧ d.status = .ok then some d.acc else none

/-- `DEC.CONSUMED` (spec/10_state.md R33). -/
def decConsumed? (d : Dec) : Option Nat := if d.st = .done ∧ d.status = .ok then some (d.off + 1) else none

/-- The decoder's response, a value with a count or the failure with nothing (spec/10_state.md R41). -/
inductive DecResponse where
  /-- `Ok(value, consumed)`. -/
  | ok (value : Word) (consumed : Nat)
  /-- `Failure(OutOfBounds)`. -/
  | outOfBounds
  deriving DecidableEq, Repr

/-- The decoder's response (spec/10_state.md R41). -/
def decResponse? (d : Dec) : Option DecResponse :=
  if d.st = .done then
    match d.status with
    | .ok => some (.ok d.acc (d.off + 1))
    | .oob => some .outOfBounds
  else none

end Sys2Proof.Machine
end

