-- ==== Sys2Proof/Machine/Moves.lean ====
section
/-! DEFINITION. What each agent does when it moves: `ENC` and `DEC` run the one step their state enables
(spec/40_encoder.md R92, spec/41_decoder.md R112), the host runs the next action of its script within its
duties (spec/70_reset_and_hazards.md R176, R177). -/

namespace Sys2Proof.Machine

/-- The step `ENC` has enabled on its own; none at rest (spec/40_encoder.md R92). -/
def encEnabled (e : Enc) : Option Instr :=
  match e.st with
  | .idle => none
  | .done => none
  | .first => if encGe240 e then some .encPrefix else some .encSingle
  | .chain => if encGe128 e then some .encCont else some .encFinal

/-- `DEC` reads the byte at `a` and classifies it for the position `pos`. -/
def decFetchAt (s : State) (pos : Position) (a : Nat) : Except Fault (Option Instr) :=
  match memByte? s a with
  | some b => .ok (some (decodeByte pos b))
  | none => .error (.noSuchAddress a)

/-- What `DEC` runs next on its own: the `OutOfBounds` step of its state when the bounds test fails, else the
class of the byte it reads at `START + OFF`; nothing at rest (spec/41_decoder.md R112, spec/60_exceptions.md R155). -/
def decFetch (s : State) : Except Fault (Option Instr) :=
  match s.dec.st with
  | .idle => .ok none
  | .done => .ok none
  | .first => if s.dec.start ≤ s.dec.last then decFetchAt s .first s.dec.start else .ok (some .decOob0)
  | .accum => if decInb s.dec then decFetchAt s .later (s.dec.start + s.dec.off) else .ok (some .decOobk)

/-- A move of `ENC`; at rest it stays as it is. -/
def encMove (s : State) : Answer :=
  match encEnabled s.enc with
  | some i => exec i s
  | none => .next s

/-- A move of `DEC`; at rest it stays as it is. -/
def decMove (s : State) : Answer :=
  match decFetch s with
  | .ok (some i) => exec i s
  | .ok none => .next s
  | .error r => .fault r

/-- The host may write the `n` bytes from `a` on: no decode runs, or none of them lies in `START..END`, which is
empty when `START > END` (spec/70_reset_and_hazards.md R176 row 4, spec/10_state.md R29). -/
def hostMayWrite (d : Dec) (a n : Nat) : Bool :=
  decAtRest d || decide (n = 0) || decide (d.last < d.start) || decide (a + n ≤ d.start) || decide (d.last < a)

/-- The host writes `bytes` to `MEM` from `a` on and goes on with `rest`; it waits while a decode runs over
those bytes (spec/30_encoding.md R82, spec/70_reset_and_hazards.md R176, R177). -/
def hostWrite (s : State) (a : Nat) (bytes : List Byte) (rest : List HostAction) : Answer :=
  if 2 ^ s.params.aw < a + bytes.length then .refused (.hostWriteOutsideMem a)
  else if hostMayWrite s.dec a bytes.length then
    .next ((s.withMem (memWriteList s.mem a bytes)).withScript rest)
  else .next s

/-- A move of the host: the next action of its script. A request to a busy unit waits until the unit is at
rest (spec/70_reset_and_hazards.md R176 rows 1, 3, R177), a copy waits for the encoder's response (row 2). -/
def hostMove (s : State) : Answer :=
  match s.script with
  | [] => .next s
  | .enc v :: rest => if encAtRest s.enc then exec (.encStart v) (s.withScript rest) else .next s
  | .dec a e :: rest => if decAtRest s.dec then exec (.decStart a e) (s.withScript rest) else .next s
  | .set a bytes :: rest => hostWrite s a bytes rest
  | .cpy a :: rest =>
    match encResponse? s.enc with
    | some bytes => hostWrite s a bytes rest
    | none => if encAtRest s.enc then .refused .responseNotValid else .next s
  | .reset :: rest => .next (resetUnits (s.withScript rest))

/-- A move of the agent `a`. -/
def agentMove (a : Agent) (s : State) : Answer :=
  match a with
  | .enc => encMove s
  | .dec => decMove s
  | .host => hostMove s

/-- Who moves when the schedule does not say: a busy unit, else the host (spec/70_reset_and_hazards.md R179, assumption 3). -/
def restAgent (s : State) : Agent :=
  if decAtRest s.dec = false then .dec else if encAtRest s.enc = false then .enc else .host

/-- The agent that moves next. -/
def nextAgent (s : State) : Agent :=
  match s.sched with
  | [] => restAgent s
  | a :: _ => a

/-- `n` moves of one agent, up to the first stop: a run of an operation (spec/00_scope.md R12). -/
def agentRun (a : Agent) : Nat → State → Answer
  | 0, s => .next s
  | n + 1, s =>
    match agentMove a s with
    | .next t => agentRun a n t
    | .fault r => .fault r
    | .refused r => .refused r

/-- `s` with the byte `b` where `DEC` reads its next byte as the first of a sequence, and `DEC` next to move:
a one-byte range at address 0 is latched (spec/41_decoder.md R113, assumption 8). -/
def withFirstByte (s : State) (b : Byte) : State :=
  (((decAccept s 0 0)).withMem (memWrite s.mem 0 b)).withSched []

end Sys2Proof.Machine
end

