-- ==== Sys2Proof/Machine/Step.lean ====
section
/-! DEFINITION. One step of the machine: the agent the schedule names, or a busy unit, or the host, makes one
move (spec/00_scope.md R12, R13; assumption 3). -/

namespace Sys2Proof.Machine

/-- One step. -/
def step (s : State) : Host.Outcome State Fault Refusal :=
  agentMove (nextAgent s) (s.withSched s.sched.tail)

/-- `s` with the byte `w` of a class row stored where `DEC` reads its next byte (assumption 8). -/
def State.withFetchWord (s : State) (nbits w : Nat) : State :=
  withFirstByte s (BitVec.ofNat 8 (w % 2 ^ nbits))

end Sys2Proof.Machine
end

