-- ==== Sys2Proof/Safety.lean ====
section
/-! DEFINITION. The invariant of the machine: what the rules say of every reachable state. -/

namespace Sys2Proof.Machine

/-- The encoder's part: `ENC.IDX` is at most 10 (spec/10_state.md R24), 0 before the first byte, between 1 and
9 while bytes remain, and the working value then fits what is left, `W < 2^(60 − 7j)` after `j` continuation
bytes, where `IDX = j + 1` (spec/40_encoder.md R98). -/
def encInv (e : Enc) : Bool :=
  match e.st with
  | .idle => decide (e.idx = 0)
  | .first => decide (e.idx = 0)
  | .chain => decide (1 ≤ e.idx.toNat ∧ e.idx.toNat ≤ 9 ∧ e.w.toNat < 2 ^ (67 - 7 * e.idx.toNat))
  | .done => decide (1 ≤ e.idx.toNat ∧ e.idx.toNat ≤ 10)

/-- The decoder's part: both addresses are of `AW` bits (spec/10_state.md R29); the status is `OK` until a
failure ends the operation (R32); the offset is 0 before the first byte, at most one past the range while
bytes are accumulated (R31), and inside the range after a success (R33). -/
def decInv (p : Params) (d : Dec) : Bool :=
  addressFits p d.start && addressFits p d.last &&
  match d.st with
  | .idle => decide (d.off = 0 ∧ d.status = .ok)
  | .first => decide (d.off = 0 ∧ d.status = .ok)
  | .accum => decide (1 ≤ d.off ∧ d.start + d.off ≤ d.last + 1 ∧ d.status = .ok)
  | .done => decide ((d.status = .ok ∧ d.start + d.off ≤ d.last) ∨
      (d.status = .oob ∧ d.last < d.start + d.off ∧ (d.off = 0 ∨ d.start + d.off = d.last + 1)))

/-- The invariant of the machine. -/
def Inv (s : State) : Bool := s.mem.wf s.params && encInv s.enc && decInv s.params s.dec

end Sys2Proof.Machine
end

