-- ==== Sys2Proof/Certificates/Slice0/Obligations.lean ====
section
/-! DEFINITION. The statements for the provers, one per `def Obligations.<Name> : Prop`, listed in
OBLIGATIONS.json. A next state is written as a record update of the state before, so that everything the
update does not name is unchanged: that is the frame. -/

open Sys2Proof Sys2Proof.Machine

/-! The encoder's steps. -/

/-- spec/40_encoder.md R93: the request is latched at rest and not taken while busy. -/
def Obligations.EncStartLatchesTheValue : Prop :=
  ∀ (v : Word) (s : State),
    ((s.enc.st = .idle ∨ s.enc.st = .done) →
      exec (.encStart v) s = .next { s with enc := { s.enc with w := v, idx := 0, st := .first } }) ∧
    ((s.enc.st = .first ∨ s.enc.st = .chain) → exec (.encStart v) s = .refused (.unitBusy .enc))

/-- spec/40_encoder.md R94: a value below 240 is emitted as it is; the step is enabled then and only then. -/
def Obligations.EncSingleEmitsTheValue : Prop :=
  ∀ s : State,
    (s.enc.st = .first → s.enc.w.toNat < 240 →
      exec .encSingle s = .next { s with enc :=
        { s.enc with obuf := s.enc.obuf.set 0 (BitVec.ofNat 8 s.enc.w.toNat), idx := 1, st := .done } }) ∧
    (¬ (s.enc.st = .first ∧ s.enc.w.toNat < 240) → exec .encSingle s = .refused .stepNotEnabled)

/-- spec/40_encoder.md R95: the prefix byte is 240 plus the low 4 bits, the working value is
`(W − 240) >> 4`, at most 2^60 − 16. -/
def Obligations.EncPrefixEmitsTheLowNibble : Prop :=
  ∀ s : State,
    (s.enc.st = .first → 240 ≤ s.enc.w.toNat →
      (s.enc.w.toNat - 240) / 16 ≤ 2 ^ 60 - 16 ∧
      exec .encPrefix s = .next { s with enc :=
        { st := .chain, w := BitVec.ofNat 64 ((s.enc.w.toNat - 240) / 16), idx := 1,
          obuf := s.enc.obuf.set 0 (BitVec.ofNat 8 (240 + s.enc.w.toNat % 16)) } }) ∧
    (¬ (s.enc.st = .first ∧ 240 ≤ s.enc.w.toNat) → exec .encPrefix s = .refused .stepNotEnabled)

/-- spec/40_encoder.md R96: the continuation byte is 128 plus the low 7 bits, the working value is
`(W − 128) >> 7`, strictly less than `W` divided by 128. -/
def Obligations.EncContEmitsTheLowSevenBits : Prop :=
  ∀ s : State,
    (∀ h : s.enc.idx.toNat < 10, s.enc.st = .chain → 128 ≤ s.enc.w.toNat →
      128 * ((s.enc.w.toNat - 128) / 128) < s.enc.w.toNat ∧
      exec .encCont s = .next { s with enc :=
        { st := .chain, w := BitVec.ofNat 64 ((s.enc.w.toNat - 128) / 128), idx := s.enc.idx + 1,
          obuf := s.enc.obuf.set s.enc.idx.toNat (BitVec.ofNat 8 (128 + s.enc.w.toNat % 128)) h } }) ∧
    (¬ (s.enc.st = .chain ∧ 128 ≤ s.enc.w.toNat) → exec .encCont s = .refused .stepNotEnabled)

/-- spec/40_encoder.md R97: the final byte is the working value itself, bit 7 clear. -/
def Obligations.EncFinalEmitsTheRest : Prop :=
  ∀ s : State,
    (∀ h : s.enc.idx.toNat < 10, s.enc.st = .chain → s.enc.w.toNat < 128 →
      (BitVec.ofNat 8 s.enc.w.toNat).toNat = s.enc.w.toNat ∧
      exec .encFinal s = .next { s with enc :=
        { st := .done, w := s.enc.w, idx := s.enc.idx + 1,
          obuf := s.enc.obuf.set s.enc.idx.toNat (BitVec.ofNat 8 s.enc.w.toNat) h } }) ∧
    (¬ (s.enc.st = .chain ∧ s.enc.w.toNat < 128) → exec .encFinal s = .refused .stepNotEnabled)

/-- spec/40_encoder.md R92: the graph of `ENC` is complete (a step that answers is an edge of it), and in
`FIRST` and `CHAIN` exactly one step is enabled. -/
def Obligations.EncoderGraphHasOneEnabledStep : Prop :=
  (∀ (s t : State) (v : Word), exec (.encStart v) s = .next t →
    (s.enc.st = .idle ∨ s.enc.st = .done) ∧ t.enc.st = .first) ∧
  (∀ s t : State, exec .encSingle s = .next t →
    s.enc.st = .first ∧ s.enc.w.toNat < 240 ∧ t.enc.st = .done) ∧
  (∀ s t : State, exec .encPrefix s = .next t →
    s.enc.st = .first ∧ 240 ≤ s.enc.w.toNat ∧ t.enc.st = .chain) ∧
  (∀ s t : State, exec .encCont s = .next t →
    s.enc.st = .chain ∧ 128 ≤ s.enc.w.toNat ∧ t.enc.st = .chain) ∧
  (∀ s t : State, exec .encFinal s = .next t →
    s.enc.st = .chain ∧ s.enc.w.toNat < 128 ∧ t.enc.st = .done) ∧
  (∀ s : State, (s.enc.st = .first ∨ s.enc.st = .chain) → s.enc.idx.toNat < 10 →
    ∃ i ∈ [Instr.encSingle, .encPrefix, .encCont, .encFinal],
      encEnabled s.enc = some i ∧ (∃ t, exec i s = .next t) ∧
      ∀ j ∈ [Instr.encSingle, .encPrefix, .encCont, .encFinal], j ≠ i →
        exec j s = .refused .stepNotEnabled)

/-- spec/30_encoding.md R80, the column "encoder step that emits it": the byte a step emits is of a class that
names that step. -/
def Obligations.EncoderStepsEmitTheirClass : Prop :=
  ∀ s t : State, ∀ j ∈ [Instr.encSingle, .encPrefix, .encCont, .encFinal], exec j s = .next t →
    ∃ b : Byte,
      t.enc.obuf[(if s.enc.st = .first then 0 else s.enc.idx.toNat)]? = some b ∧
      encoderStep (decodeByte (if s.enc.st = .first then .first else .later) b) = some j

/-! The operation `ENCODE`. -/

/-- spec/40_encoder.md R91, R100: `ENCODE` delivers the bytes of `ENC_SEQ(VALUE)` in `OBUF[0..L − 1]` and
their number in `ENC.LEN`, leaves `OBUF[L..9]` as it was, and writes nothing outside `ENC`. -/
def Obligations.EncodeDeliversTheSequence : Prop :=
  ∀ (v : Word) (s : State), (s.enc.st = .idle ∨ s.enc.st = .done) →
    ∃ (w : Word) (o : Vector Byte 10),
      exec (.encode v) s = .next { s with enc :=
        { st := .done, w := w, idx := BitVec.ofNat 4 (encSeq v.toNat).length, obuf := o } } ∧
      1 ≤ (encSeq v.toNat).length ∧ (encSeq v.toNat).length ≤ 10 ∧
      (∀ i : Nat, i < 10 →
        o[i]? = if i < (encSeq v.toNat).length then (encSeq v.toNat)[i]? else s.enc.obuf[i]?) ∧
      encResponse? { st := .done, w := w, idx := BitVec.ofNat 4 (encSeq v.toNat).length, obuf := o } =
        some (encSeq v.toNat)

/-- spec/40_encoder.md R99: the run of steps begun by `ENC.START` ends, after one step per byte, in `DONE` with the
length and the bytes of `ENC_SEQ` and the rest of `OBUF` unchanged: in the very state the operation gives, and it
stays there. -/
def Obligations.EncodeIsTheRunOfItsSteps : Prop :=
  ∀ (v : Word) (s : State), (s.enc.st = .idle ∨ s.enc.st = .done) →
    ∃ s1 t : State, exec (.encStart v) s = .next s1 ∧ exec (.encode v) s = .next t ∧
      (∀ n : Nat, (encSeq v.toNat).length ≤ n → agentRun .enc n s1 = .next t) ∧
      t.enc.st = .done ∧ (encLen? t.enc).map BitVec.toNat = some (encSeq v.toNat).length ∧
      ∀ i : Nat, i < 10 →
        t.enc.obuf[i]? = if i < (encSeq v.toNat).length then (encSeq v.toNat)[i]? else s.enc.obuf[i]?

/-! The decoder's steps. -/

/-- spec/41_decoder.md R113: the range is latched at rest, whatever it is, and not taken while busy. -/
def Obligations.DecStartLatchesTheRange : Prop :=
  ∀ (a e : Nat) (s : State), a < 2 ^ s.params.aw → e < 2 ^ s.params.aw →
    ((s.dec.st = .idle ∨ s.dec.st = .done) →
      exec (.decStart a e) s = .next { s with dec :=
        { s.dec with start := a, last := e, off := 0, status := .ok, st := .first } }) ∧
    ((s.dec.st = .first ∨ s.dec.st = .accum) → exec (.decStart a e) s = .refused (.unitBusy .dec))

/-- spec/41_decoder.md R114: an empty range, and nothing else, raises `OutOfBounds` here. -/
def Obligations.DecOob0RaisesOnAnEmptyRange : Prop :=
  ∀ s : State,
    (s.dec.st = .first → s.dec.last < s.dec.start →
      exec .decOob0 s = .next { s with dec := { s.dec with status := .oob, st := .done } }) ∧
    (¬ (s.dec.st = .first ∧ s.dec.last < s.dec.start) → exec .decOob0 s = .refused .stepNotEnabled)

/-- spec/41_decoder.md R115: a first byte below 240 is the value; the step is enabled then and only then. -/
def Obligations.DecSingleReturnsTheByte : Prop :=
  ∀ s : State, s.dec.last < 2 ^ s.params.aw →
    (s.dec.st = .first → s.dec.start ≤ s.dec.last → (memRead s.mem s.dec.start).toNat < 240 →
      exec .decSingle s = .next { s with dec :=
        { s.dec with acc := BitVec.ofNat 64 (memRead s.mem s.dec.start).toNat, st := .done } }) ∧
    (¬ (s.dec.st = .first ∧ s.dec.start ≤ s.dec.last ∧ (memRead s.mem s.dec.start).toNat < 240) →
      exec .decSingle s = .refused .stepNotEnabled)

/-- spec/41_decoder.md R116: the prefix byte is loaded whole, not masked. -/
def Obligations.DecPrefixLoadsTheByteUnmasked : Prop :=
  ∀ s : State, s.dec.last < 2 ^ s.params.aw →
    (s.dec.st = .first → s.dec.start ≤ s.dec.last → 240 ≤ (memRead s.mem s.dec.start).toNat →
      exec .decPrefix s = .next { s with dec :=
        { s.dec with acc := BitVec.ofNat 64 (memRead s.mem s.dec.start).toNat, off := 1, st := .accum } }) ∧
    (¬ (s.dec.st = .first ∧ s.dec.start ≤ s.dec.last ∧ 240 ≤ (memRead s.mem s.dec.start).toNat) →
      exec .decPrefix s = .refused .stepNotEnabled)

/-- spec/41_decoder.md R117: a byte promised but outside the range raises `OutOfBounds`. -/
def Obligations.DecOobkRaisesOnATruncatedSequence : Prop :=
  ∀ s : State,
    (s.dec.st = .accum → s.dec.last < s.dec.start + s.dec.off →
      exec .decOobk s = .next { s with dec := { s.dec with status := .oob, st := .done } }) ∧
    (¬ (s.dec.st = .accum ∧ s.dec.last < s.dec.start + s.dec.off) → exec .decOobk s = .refused .stepNotEnabled)

/-- spec/41_decoder.md R118, R121: the whole byte shifted by `4 + 7·(OFF − 1)` is added; the sum is cut to 64
bits under `wrap`, exact under either parameter when it fits, and some value under `any` when it does not. -/
def Obligations.DecContAddsTheShiftedByte : Prop :=
  ∀ s : State, s.dec.last < 2 ^ s.params.aw →
    (s.dec.st = .accum → s.dec.start + s.dec.off ≤ s.dec.last →
      128 ≤ (memRead s.mem (s.dec.start + s.dec.off)).toNat →
      ∃ (x : Word) (n : Nat),
        exec .decCont s = .next { s with dec := { s.dec with acc := x, off := s.dec.off + 1 }, draws := n } ∧
        ((s.params.decOvf = .wrap ∨ s.dec.acc.toNat +
            (memRead s.mem (s.dec.start + s.dec.off)).toNat * 2 ^ (4 + 7 * (s.dec.off - 1)) < 2 ^ 64) →
          n = s.draws ∧ x.toNat = (s.dec.acc.toNat +
            (memRead s.mem (s.dec.start + s.dec.off)).toNat * 2 ^ (4 + 7 * (s.dec.off - 1))) % 2 ^ 64)) ∧
    (¬ (s.dec.st = .accum ∧ s.dec.start + s.dec.off ≤ s.dec.last ∧
        128 ≤ (memRead s.mem (s.dec.start + s.dec.off)).toNat) →
      exec .decCont s = .refused .stepNotEnabled)

/-- spec/41_decoder.md R119, R121: as `DEC.CONT`, and the sequence ends: `OFF` and `STATUS` stay as they are. -/
def Obligations.DecFinalAddsTheByteAndStops : Prop :=
  ∀ s : State, s.dec.last < 2 ^ s.params.aw →
    (s.dec.st = .accum → s.dec.start + s.dec.off ≤ s.dec.last →
      (memRead s.mem (s.dec.start + s.dec.off)).toNat < 128 →
      ∃ (x : Word) (n : Nat),
        exec .decFinal s = .next { s with dec := { s.dec with acc := x, st := .done }, draws := n } ∧
        ((s.params.decOvf = .wrap ∨ s.dec.acc.toNat +
            (memRead s.mem (s.dec.start + s.dec.off)).toNat * 2 ^ (4 + 7 * (s.dec.off - 1)) < 2 ^ 64) →
          n = s.draws ∧ x.toNat = (s.dec.acc.toNat +
            (memRead s.mem (s.dec.start + s.dec.off)).toNat * 2 ^ (4 + 7 * (s.dec.off - 1))) % 2 ^ 64)) ∧
    (¬ (s.dec.st = .accum ∧ s.dec.start + s.dec.off ≤ s.dec.last ∧
        (memRead s.mem (s.dec.start + s.dec.off)).toNat < 128) →
      exec .decFinal s = .refused .stepNotEnabled)

/-- spec/41_decoder.md R112: the graph of `DEC` is complete, and in `FIRST` and `ACCUM` exactly one step is enabled. -/
def Obligations.DecoderGraphHasOneEnabledStep : Prop :=
  (∀ (s t : State) (a e : Nat), exec (.decStart a e) s = .next t →
    (s.dec.st = .idle ∨ s.dec.st = .done) ∧ t.dec.st = .first) ∧
  (∀ s t : State, exec .decOob0 s = .next t →
    s.dec.st = .first ∧ s.dec.last < s.dec.start ∧ t.dec.st = .done ∧ t.dec.status = .oob) ∧
  (∀ s t : State, exec .decSingle s = .next t →
    s.dec.st = .first ∧ s.dec.start ≤ s.dec.last ∧ (memRead s.mem s.dec.start).toNat < 240 ∧ t.dec.st = .done ∧
      t.dec.status = s.dec.status) ∧
  (∀ s t : State, exec .decPrefix s = .next t →
    s.dec.st = .first ∧ s.dec.start ≤ s.dec.last ∧ 240 ≤ (memRead s.mem s.dec.start).toNat ∧ t.dec.st = .accum) ∧
  (∀ s t : State, exec .decOobk s = .next t →
    s.dec.st = .accum ∧ s.dec.last < s.dec.start + s.dec.off ∧ t.dec.st = .done ∧ t.dec.status = .oob) ∧
  (∀ s t : State, exec .decCont s = .next t →
    s.dec.st = .accum ∧ s.dec.start + s.dec.off ≤ s.dec.last ∧
      128 ≤ (memRead s.mem (s.dec.start + s.dec.off)).toNat ∧ t.dec.st = .accum) ∧
  (∀ s t : State, exec .decFinal s = .next t →
    s.dec.st = .accum ∧ s.dec.start + s.dec.off ≤ s.dec.last ∧
      (memRead s.mem (s.dec.start + s.dec.off)).toNat < 128 ∧ t.dec.st = .done ∧ t.dec.status = s.dec.status) ∧
  (∀ s : State, (s.dec.st = .first ∨ s.dec.st = .accum) → s.dec.last < 2 ^ s.params.aw →
    ∃ i ∈ [Instr.decOob0, .decSingle, .decPrefix, .decOobk, .decCont, .decFinal],
      (∃ t, exec i s = .next t) ∧
      ∀ j ∈ [Instr.decOob0, .decSingle, .decPrefix, .decOobk, .decCont, .decFinal], j ≠ i →
        exec j s = .refused .stepNotEnabled)

/-! The byte classes. -/

/-- spec/30_encoding.md R80, spec/41_decoder.md R115: a byte of each of the four `SINGLE` rows, first in a
range that is not empty, is the value. -/
def Obligations.SingleRowsReturnTheByte : Prop :=
  ∀ (v : Byte) (s : State), s.dec.st = .first → s.dec.start ≤ s.dec.last →
    (v.toNat < 128 → exec (.byteSingleA v) s =
      .next { s with dec := { s.dec with acc := BitVec.ofNat 64 v.toNat, st := .done } }) ∧
    (128 ≤ v.toNat → v.toNat < 192 → exec (.byteSingleB v) s =
      .next { s with dec := { s.dec with acc := BitVec.ofNat 64 v.toNat, st := .done } }) ∧
    (192 ≤ v.toNat → v.toNat < 224 → exec (.byteSingleC v) s =
      .next { s with dec := { s.dec with acc := BitVec.ofNat 64 v.toNat, st := .done } }) ∧
    (224 ≤ v.toNat → v.toNat < 240 → exec (.byteSingleD v) s =
      .next { s with dec := { s.dec with acc := BitVec.ofNat 64 v.toNat, st := .done } })

/-- spec/30_encoding.md R80, spec/41_decoder.md R116: a byte `1111nnnn` first in the range starts a sum of
`240 + n`. -/
def Obligations.PrefixClassStartsTheSum : Prop :=
  ∀ (n : BitVec 4) (s : State), s.dec.st = .first → s.dec.start ≤ s.dec.last →
    exec (.bytePrefix n) s = .next { s with dec :=
      { s.dec with acc := BitVec.ofNat 64 (240 + n.toNat), off := 1, st := .accum } }

/-- spec/30_encoding.md R80, spec/41_decoder.md R118: a byte `1ppppppp` later in the range adds
`(128 + p) << SH(OFF)` and the sequence goes on. -/
def Obligations.ContClassAddsItsByte : Prop :=
  ∀ (p : BitVec 7) (s : State), s.dec.st = .accum → s.dec.start + s.dec.off ≤ s.dec.last →
    ∃ (x : Word) (n : Nat),
      exec (.byteCont p) s = .next { s with dec := { s.dec with acc := x, off := s.dec.off + 1 }, draws := n } ∧
      ((s.params.decOvf = .wrap ∨
          s.dec.acc.toNat + (128 + p.toNat) * 2 ^ (4 + 7 * (s.dec.off - 1)) < 2 ^ 64) →
        n = s.draws ∧
        x.toNat = (s.dec.acc.toNat + (128 + p.toNat) * 2 ^ (4 + 7 * (s.dec.off - 1))) % 2 ^ 64)

/-- spec/30_encoding.md R80, spec/41_decoder.md R119: a byte `0ppppppp` later in the range adds
`p << SH(OFF)` and the sequence ends. -/
def Obligations.FinalClassAddsItsByteAndStops : Prop :=
  ∀ (p : BitVec 7) (s : State), s.dec.st = .accum → s.dec.start + s.dec.off ≤ s.dec.last →
    ∃ (x : Word) (n : Nat),
      exec (.byteFinal p) s = .next { s with dec := { s.dec with acc := x, st := .done }, draws := n } ∧
      ((s.params.decOvf = .wrap ∨
          s.dec.acc.toNat + p.toNat * 2 ^ (4 + 7 * (s.dec.off - 1)) < 2 ^ 64) →
        n = s.draws ∧
        x.toNat = (s.dec.acc.toNat + p.toNat * 2 ^ (4 + 7 * (s.dec.off - 1))) % 2 ^ 64)

/-- spec/30_encoding.md R80, the column "decoder step": the class of the byte the decoder reads does what the
step that the class names does on that byte, whatever the outcome. -/
def Obligations.ByteClassesDoWhatTheirDecoderStepDoes : Prop :=
  ∀ (s : State) (i j : Instr), decFetch s = .ok (some i) → decoderStep i = some j → exec i s = exec j s

/-! The operation `DECODE`. -/

/-- spec/41_decoder.md R111, R121: if the range begins with a terminated sequence, the response is its length
and its natural value (cut to 64 bits under `wrap`); if it begins with none, the response is `OutOfBounds`. -/
def Obligations.DecodeReturnsTheSequenceOfItsRange : Prop :=
  ∀ (a e : Nat) (s : State), (s.dec.st = .idle ∨ s.dec.st = .done) → a < 2 ^ s.params.aw → e < 2 ^ s.params.aw →
    ∃ (d : Dec) (n : Nat), exec (.decode a e) s = .next { s with dec := d, draws := n } ∧
      d.st = .done ∧ d.start = a ∧ d.last = e ∧
      (∀ l : Nat, a + l ≤ e + 1 → terminated (memSlice s.mem a l) = true →
        d.status = .ok ∧ d.off + 1 = l ∧
        ((s.params.decOvf = .wrap ∨ natOf (memSlice s.mem a l) < 2 ^ 64) →
          n = s.draws ∧ d.acc.toNat = natOf (memSlice s.mem a l) % 2 ^ 64)) ∧
      ((∀ l : Nat, a + l ≤ e + 1 → terminated (memSlice s.mem a l) = false) → d.status = .oob ∧
        (s.params.decOvf = .wrap → n = s.draws))

/-- spec/41_decoder.md R123: the run of steps begun by `DEC.START` ends, after at most one step per byte of
the range and one more, in the very state the operation gives, and stays there. -/
def Obligations.DecodeIsTheRunOfItsSteps : Prop :=
  ∀ (a e : Nat) (s : State), (s.dec.st = .idle ∨ s.dec.st = .done) → a < 2 ^ s.params.aw → e < 2 ^ s.params.aw →
    ∃ s1 t : State, exec (.decStart a e) s = .next s1 ∧ exec (.decode a e) s = .next t ∧ t.dec.st = .done ∧
      ∀ n : Nat, (e + 1 - a) + 1 ≤ n → agentRun .dec n s1 = .next t

/-- spec/42_codec_laws.md R138: a range that ends inside a terminated sequence fails, after reading all of the
range and nothing else; an empty range reads nothing. -/
def Obligations.TruncatedSequenceIsOutOfBounds : Prop :=
  ∀ (a e : Nat) (s : State), (s.dec.st = .idle ∨ s.dec.st = .done) → a < 2 ^ s.params.aw → e < 2 ^ s.params.aw →
    (∀ l : Nat, terminated (memSlice s.mem a l) = true → e + 1 < a + l →
      ∃ t : State, exec (.decode a e) s = .next t ∧ decResponse? t.dec = some .outOfBounds ∧
        decodeReads s.mem a e = (List.range (e + 1 - a)).map (fun k => a + k)) ∧
    (e < a → ∃ t : State, exec (.decode a e) s = .next t ∧ decResponse? t.dec = some .outOfBounds ∧
      decodeReads s.mem a e = [])

/-- spec/42_codec_laws.md R139: once the range holds a whole sequence, neither its end nor any byte outside
the sequence matters, and none of those bytes is read. -/
def Obligations.TrailingBytesDoNotMatter : Prop :=
  ∀ (a e e' l : Nat) (s s' : State),
    (s.dec.st = .idle ∨ s.dec.st = .done) → (s'.dec.st = .idle ∨ s'.dec.st = .done) →
    s'.params = s.params → s'.draws = s.draws → e < 2 ^ s.params.aw → e' < 2 ^ s.params.aw →
    terminated (memSlice s.mem a l) = true → memSlice s'.mem a l = memSlice s.mem a l →
    a + l ≤ e + 1 → a + l ≤ e' + 1 →
    decodeReads s.mem a e = (List.range l).map (fun k => a + k) ∧
    ∃ t t' : State, exec (.decode a e) s = .next t ∧ exec (.decode a e') s' = .next t' ∧
      decResponse? t.dec = decResponse? t'.dec

/-- spec/20_memory.md R55: the addresses read are `START`, `START + 1`, … in order, each once, all inside the
range: as many as were consumed on success, the whole range on failure; and no other byte of `MEM` has any
influence on what the operation does. -/
def Obligations.DecodeReadsOnlyTheBytesItReports : Prop :=
  ∀ (a e : Nat) (s : State), (s.dec.st = .idle ∨ s.dec.st = .done) → a < 2 ^ s.params.aw → e < 2 ^ s.params.aw →
    ∃ t : State, exec (.decode a e) s = .next t ∧
      decodeReads s.mem a e = (List.range
        (if t.dec.status = .ok then t.dec.off + 1 else e + 1 - a)).map (fun k => a + k) ∧
      (∀ x ∈ decodeReads s.mem a e, a ≤ x ∧ x ≤ e) ∧
      ∀ m : Memory, (∀ x ∈ decodeReads s.mem a e, memRead m x = memRead s.mem x) →
        exec (.decode a e) (s.withMem m) = .next (t.withMem m)

/-- spec/20_memory.md R55: one step of the decoder depends on no byte of `MEM` but the one at `START + OFF`,
and a step that handles no byte depends on none. -/
def Obligations.DecoderStepReadsOneByte : Prop :=
  (∀ (s t : State) (m : Memory), (s.dec.st = .first → s.dec.off = 0) →
    memRead m (s.dec.start + s.dec.off) = memRead s.mem (s.dec.start + s.dec.off) →
    ∀ j ∈ [Instr.decSingle, .decPrefix, .decCont, .decFinal],
      exec j s = .next t → exec j (s.withMem m) = .next (t.withMem m)) ∧
  (∀ (s t : State) (m : Memory) (a e : Nat), ∀ j ∈ [Instr.decStart a e, .decOob0, .decOobk],
      exec j s = .next t → exec j (s.withMem m) = .next (t.withMem m))

/-! The round trip and streams. -/

/-- spec/42_codec_laws.md R130: decoding a range that begins with `ENC_SEQ(v)` and holds all of it gives `v`
and its length, for every `v` and under either `DEC_OVF`. -/
def Obligations.DecodeOfAnEncodingReturnsTheValue : Prop :=
  ∀ (v : Word) (a e : Nat) (s : State), (s.dec.st = .idle ∨ s.dec.st = .done) → e < 2 ^ s.params.aw →
    a + (encSeq v.toNat).length ≤ e + 1 →
    memSlice s.mem a (encSeq v.toNat).length = encSeq v.toNat →
    ∃ t : State, exec (.decode a e) s = .next t ∧
      decResponse? t.dec = some (.ok v (encSeq v.toNat).length)

/-- spec/42_codec_laws.md R130 through both units: encode, let the host copy the response into `MEM`, decode
any range that holds it: the value comes back, whatever `MEM` and the units held before. -/
def Obligations.EncodeCopyDecodeReturnsTheValue : Prop :=
  ∀ (v : Word) (a e : Nat) (s : State),
    (s.enc.st = .idle ∨ s.enc.st = .done) → (s.dec.st = .idle ∨ s.dec.st = .done) →
    s.mem.wf s.params = true → e < 2 ^ s.params.aw → a + (encSeq v.toNat).length ≤ e + 1 →
    ∃ (t u : State) (bytes : List Byte), exec (.encode v) s = .next t ∧ encResponse? t.enc = some bytes ∧
      exec (.decode a e) (t.withMem (memWriteList t.mem a bytes)) = .next u ∧
      decResponse? u.dec = some (.ok v bytes.length)

/-- spec/42_codec_laws.md R140: encodings one after another are decoded in turn, each from where the one before
ended, and the range is then empty. -/
def Obligations.StreamOfEncodingsDecodesInTurn : Prop :=
  ∀ (vs : List Word) (a e : Nat) (s : State), (s.dec.st = .idle ∨ s.dec.st = .done) → e < 2 ^ s.params.aw →
    a ≤ e + 1 → memSlice s.mem a (e + 1 - a) = vs.flatMap (fun v => encSeq v.toNat) →
    (∀ (before after : List Word) (v : Word), vs = before ++ v :: after →
      ∃ t : State,
        exec (.decode (a + (before.flatMap fun x => encSeq x.toNat).length) e) s = .next t ∧
        decResponse? t.dec = some (.ok v (encSeq v.toNat).length)) ∧
    (e + 1 < 2 ^ s.params.aw →
      ∃ t : State, exec (.decode (e + 1) e) s = .next t ∧ decResponse? t.dec = some .outOfBounds)

/-- spec/30_encoding.md R82, spec/70_reset_and_hazards.md R176 row 4, R177: the bytes written stand where they were
put, every other byte reads as before, and the memory keeps its canonical form; the host's `SET` makes that write and
goes on when no decode runs or no byte of it lies in `START..END`, and has no effect, staying next, while a decode
runs over one of its bytes (that it waits is the model's choice, assumption 11). -/
def Obligations.HostWritePlacesTheBytes : Prop :=
  (∀ (p : Params) (m : Memory) (a : Nat) (bytes : List Byte), m.wf p = true → a + bytes.length ≤ 2 ^ p.aw →
    Memory.wf p (memWriteList m a bytes) = true ∧ memSlice (memWriteList m a bytes) a bytes.length = bytes ∧
    ∀ x : Nat, (x < a ∨ a + bytes.length ≤ x) → memRead (memWriteList m a bytes) x = memRead m x) ∧
  (∀ (a : Nat) (bytes : List Byte) (rest : List HostAction) (s : State), s.script = .set a bytes :: rest →
    a + bytes.length ≤ 2 ^ s.params.aw →
    (((s.dec.st = .idle ∨ s.dec.st = .done) ∨
        ∀ x, a ≤ x → x < a + bytes.length → ¬ (s.dec.start ≤ x ∧ x ≤ s.dec.last)) →
      agentMove .host s = .next { s with mem := memWriteList s.mem a bytes, script := rest }) ∧
    ((s.dec.st = .first ∨ s.dec.st = .accum) →
      (∃ x, a ≤ x ∧ x < a + bytes.length ∧ s.dec.start ≤ x ∧ x ≤ s.dec.last) →
      agentMove .host s = .next s))

/-! The laws of the format. -/

/-- spec/42_codec_laws.md R136: `NAT` is a bijection from the terminated sequences onto the naturals, and
`ENC_SEQ` is its inverse on 64-bit values: what the encoder emits is a terminated sequence of that value (R131). -/
def Obligations.NaturalValueIsABijection : Prop :=
  (∀ q q' : List Byte, terminated q = true → terminated q' = true → natOf q = natOf q' → q = q') ∧
  (∀ n : Nat, ∃ q : List Byte, terminated q = true ∧ natOf q = n) ∧
  (∀ v : Nat, v < 2 ^ 64 → terminated (encSeq v) = true ∧ natOf (encSeq v) = v) ∧
  (∀ q : List Byte, terminated q = true → natOf q < 2 ^ 64 → encSeq (natOf q) = q)

/-- spec/42_codec_laws.md R133, spec/40_encoder.md R101: the length of the encoding is `n` exactly in the class
`MIN(n) ≤ v < MIN(n + 1)`, it is from 1 to 10, and `MIN(1)` to `MIN(11)` are the numbers of the table. -/
def Obligations.LengthClassesAreExact : Prop :=
  (∀ v n : Nat, v < 2 ^ 64 →
    ((encSeq v).length = n ↔ 1 ≤ n ∧ minValue n ≤ v ∧ v < minValue (n + 1)) ∧
    1 ≤ (encSeq v).length ∧ (encSeq v).length ≤ 10) ∧
  (List.range 11).map (fun i => minValue (i + 1)) =
    [0, 240, 2288, 264432, 33818864, 4328786160, 554084600048, 70922828777712, 9078122083518704,
      1161999626690365680, 148735952216366778608]

/-- spec/42_codec_laws.md R132: `MIN(n) = 240 + 16·CAP(n − 2)` for every `n ≥ 2`. -/
def Obligations.ClassMinimaFollowTheRecurrence : Prop :=
  ∀ n : Nat, minValue (n + 2) = 240 + 16 * cap n

/-- spec/42_codec_laws.md R134: the length never falls, and it changes exactly at `MIN(2)` to `MIN(10)`. -/
def Obligations.LengthIsMonotone : Prop :=
  (∀ v v' : Nat, v ≤ v' → v' < 2 ^ 64 → (encSeq v).length ≤ (encSeq v').length) ∧
  (∀ v : Nat, v + 1 < 2 ^ 64 →
    ((encSeq (v + 1)).length ≠ (encSeq v).length ↔ ∃ n, 2 ≤ n ∧ n ≤ 10 ∧ v + 1 = minValue n))

/-- spec/42_codec_laws.md R137. -/
def Obligations.TerminatedSequencesArePrefixFree : Prop :=
  ∀ q q' : List Byte, terminated q = true → terminated q' = true → q <+: q' → q = q'

/-- spec/30_encoding.md R75: `NAT(s) = MIN(n) + PAYLOAD(s)` for a sequence of `n ≥ 2` bytes. -/
def Obligations.PayloadFormOfTheValue : Prop :=
  ∀ q : List Byte, terminated q = true → 2 ≤ q.length → natOf q = minValue q.length + payloadOf q

/-- spec/30_encoding.md R80: the rows of each position are disjoint and cover all 256 byte values. For every byte
and position exactly one well-formed class row of that position has that byte; a byte matches exactly one row of each
position's table; and the row it matches is the one it decodes to. -/
def Obligations.ClassRowsPartitionTheBytes : Prop :=
  (∀ (p : Params) (pos : Position) (b : Byte),
    ∃! i : Instr, position i = some pos ∧ encode i = [b] ∧ wellFormed p i = true) ∧
  ∀ b : Byte,
    ([((0x80 : Byte), (0x00 : Byte)), (0xC0, 0x80), (0xE0, 0xC0), (0xF0, 0xE0), (0xF0, 0xF0)].filter
      (fun r => inRow r.1 r.2 b)).length = 1 ∧
    ([((0x80 : Byte), (0x80 : Byte)), (0x80, 0x00)].filter (fun r => inRow r.1 r.2 b)).length = 1 ∧
    (inRow 0x80 0x00 b = true ↔ decodeByte .first b = .byteSingleA b) ∧
    (inRow 0xC0 0x80 b = true ↔ decodeByte .first b = .byteSingleB b) ∧
    (inRow 0xE0 0xC0 b = true ↔ decodeByte .first b = .byteSingleC b) ∧
    (inRow 0xF0 0xE0 b = true ↔ decodeByte .first b = .byteSingleD b) ∧
    (inRow 0xF0 0xF0 b = true ↔ decodeByte .first b = .bytePrefix (b.extractLsb' 0 4)) ∧
    (inRow 0x80 0x80 b = true ↔ decodeByte .later b = .byteCont (b.extractLsb' 0 7)) ∧
    (inRow 0x80 0x00 b = true ↔ decodeByte .later b = .byteFinal (b.extractLsb' 0 7))

/-- spec/30_encoding.md R80: decoding the byte of a well-formed class row at its position gives the row back,
and every byte at either position decodes to a well-formed row whose byte it is. -/
def Obligations.ByteClassesDecodeAndEncode : Prop :=
  (∀ (p : Params) (i : Instr) (pos : Position) (rest : List Byte), wellFormed p i = true →
    position i = some pos → decode pos (encode i ++ rest) = .ok (i, rest)) ∧
  (∀ (p : Params) (pos : Position) (b : Byte),
    encode (decodeByte pos b) = [b] ∧ position (decodeByte pos b) = some pos ∧
    wellFormed p (decodeByte pos b) = true)

/-- spec/30_encoding.md R73, R77: decoding is the inverse of encoding on whole sequences. A list of bytes
decodes to class rows and a rest exactly when the rows' bytes and the rest make up the list and the rows' bytes
are a terminated sequence; and every list of bytes that does not decode begins with no terminated sequence. -/
def Obligations.SequencesDecodeAndEncode : Prop :=
  (∀ (bytes rest : List Byte) (is : List Instr), decodeSeq bytes = .ok (is, rest) →
    is.flatMap encode ++ rest = bytes ∧ terminated (is.flatMap encode) = true) ∧
  (∀ q rest : List Byte, terminated q = true →
    ∃ is : List Instr, decodeSeq (q ++ rest) = .ok (is, rest) ∧ is.flatMap encode = q) ∧
  (∀ (bytes : List Byte) (r : DecodeError), decodeSeq bytes = .error r →
    ∀ q : List Byte, terminated q = true → ¬ q <+: bytes)

/-- A few words of spec/30_encoding.md R80, written out from its patterns. -/
def Obligations.WrittenOutBytesDecode : Prop :=
  decode .first [0b00000101#8] = .ok (.byteSingleA 0b00000101, []) ∧
  decode .first [0b10000000#8] = .ok (.byteSingleB 0b10000000, []) ∧
  decode .first [0b11010010#8] = .ok (.byteSingleC 0b11010010, []) ∧
  decode .first [0b11101111#8] = .ok (.byteSingleD 0b11101111, []) ∧
  decode .first [0b11111000#8] = .ok (.bytePrefix 0b1000, []) ∧
  decode .later [0b10010101#8] = .ok (.byteCont 0b0010101, []) ∧
  decode .later [0b00101111#8] = .ok (.byteFinal 0b0101111, [])

/-! What instructions leave alone. -/

/-- The rows of the encoder. -/
def encoderRows (i : Instr) : Prop :=
  i ∈ [Instr.encSingle, .encPrefix, .encCont, .encFinal] ∨ ∃ v, i = .encode v ∨ i = .encStart v

/-- spec/10_state.md R20, R35, spec/20_memory.md R50, R55, R62: no instruction writes the configuration, `MEM`
or the host's side; the encoder's rows write nothing but `ENC`; the others write nothing of `ENC`. -/
def Obligations.InstructionsWriteOnlyTheirUnit : Prop :=
  ∀ (i : Instr) (s t : State), exec i s = .next t →
    t.params = s.params ∧ t.mem = s.mem ∧ t.script = s.script ∧ t.sched = s.sched ∧
    (encoderRows i → t.dec = s.dec ∧ t.draws = s.draws) ∧ (¬ encoderRows i → t.enc = s.enc)

/-- spec/20_memory.md R62, spec/10_state.md R20: a move of one unit and a move of the other give the same state
in either order. -/
def Obligations.UnitsDoNotInteract : Prop :=
  ∀ s s1 s2 : State, agentMove .enc s = .next s1 → agentMove .dec s = .next s2 →
    ∃ t : State, agentMove .dec s1 = .next t ∧ agentMove .enc s2 = .next t

/-- spec/10_state.md R40, R41, spec/20_memory.md R60: a response stands unchanged until the unit takes the next
request, whatever else is executed. -/
def Obligations.ResponsesStandUntilTheNextRequest : Prop :=
  ∀ (i : Instr) (s t : State), exec i s = .next t →
    (s.enc.st = .done → (∀ v, i ≠ .encode v ∧ i ≠ .encStart v) → t.enc = s.enc) ∧
    (s.dec.st = .done → (∀ a e, i ≠ .decode a e ∧ i ≠ .decStart a e) → t.dec = s.dec)

/-- spec/10_state.md R37: a response does not depend on any earlier operation. The bytes of an encoding depend
on the value alone, the response of a decode on the range, its bytes and the parameters (and, for a value
`DEC_OVF = any` leaves open, on the count of free values used, assumption 5). -/
def Obligations.ResponsesForgetEarlierOperations : Prop :=
  (∀ (v : Word) (s s' : State), (s.enc.st = .idle ∨ s.enc.st = .done) → (s'.enc.st = .idle ∨ s'.enc.st = .done) →
    ∃ t t' : State, exec (.encode v) s = .next t ∧ exec (.encode v) s' = .next t' ∧
      encResponse? t.enc = encResponse? t'.enc ∧ (encResponse? t.enc).isSome) ∧
  (∀ (a e : Nat) (s s' : State), (s.dec.st = .idle ∨ s.dec.st = .done) → (s'.dec.st = .idle ∨ s'.dec.st = .done) →
    s'.params = s.params → (s.params.decOvf = .wrap ∨ s'.draws = s.draws) →
    a < 2 ^ s.params.aw → e < 2 ^ s.params.aw →
    (∀ x, a ≤ x → x ≤ e → memRead s'.mem x = memRead s.mem x) →
    ∃ t t' : State, exec (.decode a e) s = .next t ∧ exec (.decode a e) s' = .next t' ∧
      decResponse? t.dec = decResponse? t'.dec ∧ (decResponse? t.dec).isSome)

/-! The one failure. -/

/-- spec/60_exceptions.md R150, R153: only the two `OOB` steps raise `OutOfBounds`, or a whole `DECODE` whose
range begins with no terminated sequence. -/
def Obligations.OnlyBoundsExhaustionRaises : Prop :=
  ∀ (i : Instr) (s t : State), exec i s = .next t → s.dec.status = .ok → t.dec.status = .oob →
    (i = .decOob0 ∧ s.dec.last < s.dec.start) ∨
    (i = .decOobk ∧ s.dec.last < s.dec.start + s.dec.off) ∨
    ∃ a e, i = .decode a e ∧ ∀ l : Nat, a + l ≤ e + 1 → terminated (memSlice s.mem a l) = false

/-- spec/60_exceptions.md R157: after a failure the next `DEC.START` sets the status back to `OK`, whichever
instruction it stands between, and nothing else does: a decode that has failed leaves the unit free. -/
def Obligations.FailureEndsWithTheNextRequest : Prop :=
  ∀ (i : Instr) (s t : State), s.dec.st = .done → s.dec.status = .oob → exec i s = .next t →
    t.dec.status = .ok → (∃ a e, i = .decStart a e ∨ i = .decode a e)

/-- spec/40_encoder.md R93, spec/41_decoder.md R113, spec/93_implementation_defined.md U6: a whole operation
requested of a busy unit is not taken. -/
def Obligations.BusyUnitTakesNoOperation : Prop :=
  (∀ (v : Word) (s : State), (s.enc.st = .first ∨ s.enc.st = .chain) →
    exec (.encode v) s = .refused (.unitBusy .enc)) ∧
  (∀ (a e : Nat) (s : State), (s.dec.st = .first ∨ s.dec.st = .accum) →
    exec (.decode a e) s = .refused (.unitBusy .dec))

/-! Runs. -/

/-- spec/70_reset_and_hazards.md R178: after its `START` step an encode takes one step per byte; a decode takes
one step per byte read, and one more when it fails. -/
def Obligations.StepCountsOfTheOperations : Prop :=
  (∀ (v : Word) (s : State), (s.enc.st = .idle ∨ s.enc.st = .done) →
    ∃ s1, exec (.encStart v) s = .next s1 ∧ ∀ n : Nat, ∃ u, agentRun .enc n s1 = .next u ∧
      (u.enc.st = .done ↔ (encSeq v.toNat).length ≤ n)) ∧
  (∀ (a e : Nat) (s : State), (s.dec.st = .idle ∨ s.dec.st = .done) → a < 2 ^ s.params.aw → e < 2 ^ s.params.aw →
    ∃ s1 t, exec (.decStart a e) s = .next s1 ∧ exec (.decode a e) s = .next t ∧
      ∀ n : Nat, ∃ u, agentRun .dec n s1 = .next u ∧
        (u.dec.st = .done ↔
          (decodeReads s.mem a e).length + (if t.dec.status = .oob then 1 else 0) ≤ n))

/-- spec/70_reset_and_hazards.md R179, spec/40_encoder.md R98: a busy unit reaches `DONE` by its own moves, the
encoder within 10, the decoder within what is left of its range and one more. -/
def Obligations.BusyUnitsReachDone : Prop :=
  ∀ s : State, Inv s = true →
    ((s.enc.st = .first ∨ s.enc.st = .chain) →
      ∃ n t, n ≤ 10 ∧ agentRun .enc n s = .next t ∧ t.enc.st = .done) ∧
    ((s.dec.st = .first ∨ s.dec.st = .accum) →
      ∃ n t, n ≤ (s.dec.last + 1 - (s.dec.start + s.dec.off)) + 1 ∧
        agentRun .dec n s = .next t ∧ t.dec.st = .done)

/-- Every step keeps the invariant of Safety.lean, and so does every instruction: `MEM` in canonical form with
all its addresses below 2^`AW`, `ENC.IDX` at most 10 with the working value bounded by what is left
(spec/40_encoder.md R98), `DEC.OFF` at most one past the range (spec/10_state.md R31), a legal status. -/
def Obligations.EveryStepKeepsTheInvariant : Prop :=
  ∀ s t : State, Inv s = true →
    (step s = .next t → Inv t = true) ∧ (∀ i : Instr, exec i s = .next t → Inv t = true)

/-- The invariant holds right after reset. -/
def Obligations.ResetMeetsTheInvariant : Prop := Inv State.reset = true

/-- spec/20_memory.md R56, R58: from a state that meets the invariant no step faults: the write index never
leaves `OBUF` and no address of 2^`AW` or more is read. -/
def Obligations.NoStepFaults : Prop :=
  ∀ s : State, Inv s = true → ∀ r : Fault, step s ≠ .fault r

/-- spec/10_state.md R26, R33, R42: a view has a value exactly inside its window, and then `1 ≤ ENC.LEN ≤ 10`
and `1 ≤ DEC.CONSUMED ≤ AVAIL`. -/
def Obligations.ViewsAreValidInTheirWindow : Prop :=
  ∀ s : State, Inv s = true →
    ((encLen? s.enc).isSome = true ↔ s.enc.st = .done) ∧
    (∀ n, encLen? s.enc = some n → 1 ≤ n.toNat ∧ n.toNat ≤ 10) ∧
    (∀ i : Nat, (encByte? s.enc i).isSome = true ↔ s.enc.st = .done ∧ i < s.enc.idx.toNat) ∧
    ((decStatus? s.dec).isSome = true ↔ s.dec.st = .done) ∧
    ((decValue? s.dec).isSome = true ↔ s.dec.st = .done ∧ s.dec.status = .ok) ∧
    ((decConsumed? s.dec).isSome = true ↔ s.dec.st = .done ∧ s.dec.status = .ok) ∧
    (∀ c, decConsumed? s.dec = some c → 1 ≤ c ∧ s.dec.start + c ≤ s.dec.last + 1)

/-! Reset and the step. -/

/-- spec/10_state.md R38: the registers it gives a value. -/
def Obligations.ResetLeavesTheControlState : Prop :=
  State.reset.enc.st = .idle ∧ State.reset.enc.idx = 0 ∧ State.reset.dec.st = .idle ∧
  State.reset.dec.off = 0 ∧ State.reset.dec.status = .ok ∧
  encLen? State.reset.enc = none ∧ decValue? State.reset.dec = none ∧ decConsumed? State.reset.dec = none

/-- spec/70_reset_and_hazards.md R170: a reset the host applies, at any time, puts both units in `IDLE` with the
control registers of R38 and produces no response; `MEM` and the configuration stay. -/
def Obligations.HostResetAbandonsOperations : Prop :=
  ∀ (s : State) (rest : List HostAction), s.script = .reset :: rest →
    ∃ t : State, agentMove .host s = .next t ∧ t.enc.st = .idle ∧ t.enc.idx = 0 ∧ t.dec.st = .idle ∧
      t.dec.off = 0 ∧ t.dec.status = .ok ∧ encResponse? t.enc = none ∧ decResponse? t.dec = none ∧
      t.mem = s.mem ∧ t.params = s.params ∧ t.script = rest

/-- spec/70_reset_and_hazards.md R176 rows 1 and 3, R177: a request is taken by the unit's `START` step when the
unit is at rest; while it is busy the host's request waits and nothing changes. -/
def Obligations.HostRequestsWaitForTheUnit : Prop :=
  (∀ (v : Word) (rest : List HostAction) (s : State), s.script = .enc v :: rest →
    ((s.enc.st = .idle ∨ s.enc.st = .done) →
      agentMove .host s = exec (.encStart v) { s with script := rest }) ∧
    ((s.enc.st = .first ∨ s.enc.st = .chain) → agentMove .host s = .next s)) ∧
  (∀ (a e : Nat) (rest : List HostAction) (s : State), s.script = .dec a e :: rest →
    ((s.dec.st = .idle ∨ s.dec.st = .done) →
      agentMove .host s = exec (.decStart a e) { s with script := rest }) ∧
    ((s.dec.st = .first ∨ s.dec.st = .accum) → agentMove .host s = .next s))

/-- spec/30_encoding.md R82, spec/70_reset_and_hazards.md R176 rows 2 and 4, R177, spec/10_state.md R42: the host
copies exactly `OBUF[0..LEN − 1]` to `MEM` when the response is valid and no decode runs or no byte copied lies in
`START..END`; while a decode runs over one of those bytes, or the encoder is busy, the copy has no effect and stays
next (assumption 11); a copy before any operation has completed has nothing to read (assumption 10). -/
def Obligations.HostCopyTakesTheResponse : Prop :=
  (∀ (a : Nat) (rest : List HostAction) (s : State) (bytes : List Byte), s.script = .cpy a :: rest →
    s.enc.st = .done → bytes = s.enc.obuf.toList.take s.enc.idx.toNat → a + bytes.length ≤ 2 ^ s.params.aw →
    (((s.dec.st = .idle ∨ s.dec.st = .done) ∨
        ∀ x, a ≤ x → x < a + bytes.length → ¬ (s.dec.start ≤ x ∧ x ≤ s.dec.last)) →
      agentMove .host s = .next { s with mem := memWriteList s.mem a bytes, script := rest }) ∧
    ((s.dec.st = .first ∨ s.dec.st = .accum) →
      (∃ x, a ≤ x ∧ x < a + bytes.length ∧ s.dec.start ≤ x ∧ x ≤ s.dec.last) →
      agentMove .host s = .next s)) ∧
  (∀ (a : Nat) (rest : List HostAction) (s : State), s.script = .cpy a :: rest →
    (s.enc.st = .first ∨ s.enc.st = .chain) → agentMove .host s = .next s) ∧
  (∀ (a : Nat) (rest : List HostAction) (s : State), s.script = .cpy a :: rest →
    s.enc.st = .idle → agentMove .host s = .refused .responseNotValid)

/-- A step runs the instruction decoded. When `DEC` is the next agent and its bounds test passes, the step is
`exec` of what the byte at `START + OFF` decodes to at its position; when the test fails, of the `OOB` step;
when `ENC` is the next agent, of the step its registers enable. Around `exec` the step only takes the agent off
the schedule (assumption 3). -/
def Obligations.StepRunsTheDecodedInstruction : Prop :=
  ∀ (s : State) (i : Instr) (rest : List Byte),
    (nextAgent s = .dec → s.dec.st = .first → s.dec.start ≤ s.dec.last → s.dec.last < 2 ^ s.params.aw →
      decode .first (memRead s.mem s.dec.start :: rest) = .ok (i, rest) →
      step s = exec i { s with sched := s.sched.tail }) ∧
    (nextAgent s = .dec → s.dec.st = .accum → s.dec.start + s.dec.off ≤ s.dec.last →
      s.dec.last < 2 ^ s.params.aw →
      decode .later (memRead s.mem (s.dec.start + s.dec.off) :: rest) = .ok (i, rest) →
      step s = exec i { s with sched := s.sched.tail }) ∧
    (nextAgent s = .dec → s.dec.st = .first → s.dec.last < s.dec.start →
      step s = exec .decOob0 { s with sched := s.sched.tail }) ∧
    (nextAgent s = .dec → s.dec.st = .accum → s.dec.last < s.dec.start + s.dec.off →
      step s = exec .decOobk { s with sched := s.sched.tail }) ∧
    (nextAgent s = .enc → encEnabled s.enc = some i → step s = exec i { s with sched := s.sched.tail })
end

