-- ==== Sys2Proof/Laws/Bytes.lean ====
section
/-! SUPPORT. The bytes of the format and the comparators, as natural numbers (spec/40_encoder.md R102:
the ORs are of disjoint fields). -/

namespace Sys2Proof.Machine

theorem prefixByte_toNat (n : BitVec 4) : (prefixByte n).toNat = 240 + n.toNat := by
  revert n; decide

theorem contByte_toNat (p : BitVec 7) : (contByte p).toNat = 128 + p.toNat := by
  revert p; decide

theorem finalByte_toNat (p : BitVec 7) : (finalByte p).toNat = p.toNat := by
  revert p; decide

theorem prefixByte_inRow (n : BitVec 4) : inRow 0xF0 0xF0 (prefixByte n) = true := by
  revert n; decide

theorem contByte_inRow (p : BitVec 7) : inRow 0x80 0x80 (contByte p) = true := by
  revert p; decide

theorem finalByte_inRow (p : BitVec 7) : inRow 0x80 0x00 (finalByte p) = true := by
  revert p; decide

theorem byteGe240_iff (b : Byte) : byteGe240 b = true ↔ 240 ≤ b.toNat := by
  simp [byteGe240, BitVec.le_def]

theorem byteGe128_iff (b : Byte) : byteGe128 b = true ↔ 128 ≤ b.toNat := by
  simp [byteGe128, BitVec.le_def]

theorem encGe240_iff (e : Enc) : encGe240 e = true ↔ 240 ≤ e.w.toNat := by
  simp [encGe240, BitVec.le_def]

theorem encGe128_iff (e : Enc) : encGe128 e = true ↔ 128 ≤ e.w.toNat := by
  simp [encGe128, BitVec.le_def]

theorem decInb_iff (d : Dec) : decInb d = true ↔ d.start + d.off ≤ d.last := by
  simp [decInb]

theorem encAtRest_iff (e : Enc) : encAtRest e = true ↔ e.st = .idle ∨ e.st = .done := by
  simp [encAtRest]

theorem decAtRest_iff (d : Dec) : decAtRest d = true ↔ d.st = .idle ∨ d.st = .done := by
  simp [decAtRest]

theorem addressFits_iff (p : Params) (a : Nat) : addressFits p a = true ↔ a < 2 ^ p.aw := by
  simp [addressFits]

theorem singleOf_toNat (w : Word) : (singleOf w).toNat = w.toNat % 256 := by
  simp [singleOf]

theorem finalOf_toNat (w : Word) : (finalOf w).toNat = w.toNat % 256 := by
  simp [finalOf]

theorem prefixOf_toNat (w : Word) : (prefixOf w).toNat = 240 + w.toNat % 16 := by
  simp [prefixOf, prefixByte_toNat]

theorem contOf_toNat (w : Word) : (contOf w).toNat = 128 + w.toNat % 128 := by
  simp [contOf, contByte_toNat]

theorem workAfterPrefix_toNat {w : Word} (h : 240 ≤ w.toNat) :
    (workAfterPrefix w).toNat = (w.toNat - 240) / 16 := by
  have hle : 240#64 ≤ w := by simpa [BitVec.le_def] using h
  simp [workAfterPrefix, BitVec.toNat_sub_of_le hle, Nat.shiftRight_eq_div_pow]

theorem workAfterCont_toNat {w : Word} (h : 128 ≤ w.toNat) :
    (workAfterCont w).toNat = (w.toNat - 128) / 128 := by
  have hle : 128#64 ≤ w := by simpa [BitVec.le_def] using h
  simp [workAfterCont, BitVec.toNat_sub_of_le hle, Nat.shiftRight_eq_div_pow]

end Sys2Proof.Machine
end

