-- ==== Sys2Proof/Laws/State.lean ====
section
/-! SUPPORT. One lemma per field per update of the state. -/

namespace Sys2Proof.Machine

@[simp] theorem State.withEnc_params (s : State) (x : Enc) : (s.withEnc x).params = s.params := rfl
@[simp] theorem State.withEnc_enc (s : State) (x : Enc) : (s.withEnc x).enc = x := rfl
@[simp] theorem State.withEnc_dec (s : State) (x : Enc) : (s.withEnc x).dec = s.dec := rfl
@[simp] theorem State.withEnc_mem (s : State) (x : Enc) : (s.withEnc x).mem = s.mem := rfl
@[simp] theorem State.withEnc_script (s : State) (x : Enc) : (s.withEnc x).script = s.script := rfl
@[simp] theorem State.withEnc_sched (s : State) (x : Enc) : (s.withEnc x).sched = s.sched := rfl
@[simp] theorem State.withEnc_draws (s : State) (x : Enc) : (s.withEnc x).draws = s.draws := rfl

@[simp] theorem State.withDec_params (s : State) (x : Dec) : (s.withDec x).params = s.params := rfl
@[simp] theorem State.withDec_enc (s : State) (x : Dec) : (s.withDec x).enc = s.enc := rfl
@[simp] theorem State.withDec_dec (s : State) (x : Dec) : (s.withDec x).dec = x := rfl
@[simp] theorem State.withDec_mem (s : State) (x : Dec) : (s.withDec x).mem = s.mem := rfl
@[simp] theorem State.withDec_script (s : State) (x : Dec) : (s.withDec x).script = s.script := rfl
@[simp] theorem State.withDec_sched (s : State) (x : Dec) : (s.withDec x).sched = s.sched := rfl
@[simp] theorem State.withDec_draws (s : State) (x : Dec) : (s.withDec x).draws = s.draws := rfl

@[simp] theorem State.withMem_params (s : State) (x : Memory) : (s.withMem x).params = s.params := rfl
@[simp] theorem State.withMem_enc (s : State) (x : Memory) : (s.withMem x).enc = s.enc := rfl
@[simp] theorem State.withMem_dec (s : State) (x : Memory) : (s.withMem x).dec = s.dec := rfl
@[simp] theorem State.withMem_mem (s : State) (x : Memory) : (s.withMem x).mem = x := rfl
@[simp] theorem State.withMem_script (s : State) (x : Memory) : (s.withMem x).script = s.script := rfl
@[simp] theorem State.withMem_sched (s : State) (x : Memory) : (s.withMem x).sched = s.sched := rfl
@[simp] theorem State.withMem_draws (s : State) (x : Memory) : (s.withMem x).draws = s.draws := rfl

@[simp] theorem State.withScript_params (s : State) (x : List HostAction) : (s.withScript x).params = s.params := rfl
@[simp] theorem State.withScript_enc (s : State) (x : List HostAction) : (s.withScript x).enc = s.enc := rfl
@[simp] theorem State.withScript_dec (s : State) (x : List HostAction) : (s.withScript x).dec = s.dec := rfl
@[simp] theorem State.withScript_mem (s : State) (x : List HostAction) : (s.withScript x).mem = s.mem := rfl
@[simp] theorem State.withScript_script (s : State) (x : List HostAction) : (s.withScript x).script = x := rfl
@[simp] theorem State.withScript_sched (s : State) (x : List HostAction) : (s.withScript x).sched = s.sched := rfl
@[simp] theorem State.withScript_draws (s : State) (x : List HostAction) : (s.withScript x).draws = s.draws := rfl

@[simp] theorem State.withSched_params (s : State) (x : List Agent) : (s.withSched x).params = s.params := rfl
@[simp] theorem State.withSched_enc (s : State) (x : List Agent) : (s.withSched x).enc = s.enc := rfl
@[simp] theorem State.withSched_dec (s : State) (x : List Agent) : (s.withSched x).dec = s.dec := rfl
@[simp] theorem State.withSched_mem (s : State) (x : List Agent) : (s.withSched x).mem = s.mem := rfl
@[simp] theorem State.withSched_script (s : State) (x : List Agent) : (s.withSched x).script = s.script := rfl
@[simp] theorem State.withSched_sched (s : State) (x : List Agent) : (s.withSched x).sched = x := rfl
@[simp] theorem State.withSched_draws (s : State) (x : List Agent) : (s.withSched x).draws = s.draws := rfl

@[simp] theorem State.withDraws_params (s : State) (x : Nat) : (s.withDraws x).params = s.params := rfl
@[simp] theorem State.withDraws_enc (s : State) (x : Nat) : (s.withDraws x).enc = s.enc := rfl
@[simp] theorem State.withDraws_dec (s : State) (x : Nat) : (s.withDraws x).dec = s.dec := rfl
@[simp] theorem State.withDraws_mem (s : State) (x : Nat) : (s.withDraws x).mem = s.mem := rfl
@[simp] theorem State.withDraws_script (s : State) (x : Nat) : (s.withDraws x).script = s.script := rfl
@[simp] theorem State.withDraws_sched (s : State) (x : Nat) : (s.withDraws x).sched = s.sched := rfl
@[simp] theorem State.withDraws_draws (s : State) (x : Nat) : (s.withDraws x).draws = x := rfl

@[simp] theorem raiseOutOfBounds_params (s : State) : (raiseOutOfBounds s).params = s.params := rfl
@[simp] theorem raiseOutOfBounds_enc (s : State) : (raiseOutOfBounds s).enc = s.enc := rfl
@[simp] theorem raiseOutOfBounds_mem (s : State) : (raiseOutOfBounds s).mem = s.mem := rfl
@[simp] theorem raiseOutOfBounds_script (s : State) : (raiseOutOfBounds s).script = s.script := rfl
@[simp] theorem raiseOutOfBounds_sched (s : State) : (raiseOutOfBounds s).sched = s.sched := rfl
@[simp] theorem raiseOutOfBounds_draws (s : State) : (raiseOutOfBounds s).draws = s.draws := rfl
@[simp] theorem raiseOutOfBounds_dec (s : State) :
    (raiseOutOfBounds s).dec = { s.dec with status := .oob, st := .done } := rfl

@[simp] theorem decAccept_params (s : State) (a e : Nat) : (decAccept s a e).params = s.params := rfl
@[simp] theorem decAccept_enc (s : State) (a e : Nat) : (decAccept s a e).enc = s.enc := rfl
@[simp] theorem decAccept_mem (s : State) (a e : Nat) : (decAccept s a e).mem = s.mem := rfl
@[simp] theorem decAccept_script (s : State) (a e : Nat) : (decAccept s a e).script = s.script := rfl
@[simp] theorem decAccept_sched (s : State) (a e : Nat) : (decAccept s a e).sched = s.sched := rfl
@[simp] theorem decAccept_draws (s : State) (a e : Nat) : (decAccept s a e).draws = s.draws := rfl
@[simp] theorem decAccept_dec (s : State) (a e : Nat) : (decAccept s a e).dec =
    { s.dec with start := a, last := e, off := 0, status := .ok, st := .first } := rfl

@[simp] theorem resetUnits_params (s : State) : (resetUnits s).params = s.params := rfl
@[simp] theorem resetUnits_mem (s : State) : (resetUnits s).mem = s.mem := rfl
@[simp] theorem resetUnits_script (s : State) : (resetUnits s).script = s.script := rfl
@[simp] theorem resetUnits_sched (s : State) : (resetUnits s).sched = s.sched := rfl

/-- Writing a field back as it is changes nothing. -/
@[simp] theorem State.withSched_self (s : State) : s.withSched s.sched = s := rfl

@[simp] theorem State.withDraws_self (s : State) : s.withDraws s.draws = s := rfl

end Sys2Proof.Machine
end

