-- ==== Sys2Proof/Laws/Memory.lean ====
section
/-! SUPPORT. The laws of `MEM`: a read after a write, and the canonical form that every memory operation keeps. -/

namespace Sys2Proof.Machine

/-- Addresses listed above `a` do not list `a`. -/
theorem memRead_below {top low : Nat} {m : Memory} (h : memSorted top low m = true) {a : Nat} (ha : a < low) :
    memRead m a = 0#8 := by
  induction m generalizing low with
  | nil => rfl
  | cons cx m ih =>
    obtain ⟨c, x⟩ := cx
    simp only [memSorted, Bool.and_eq_true, decide_eq_true_eq] at h
    have hne : c ≠ a := by omega
    simp only [memRead, hne, if_false]
    exact ih h.2 (by omega)

/-- A higher lower bound may be replaced by a smaller one. -/
theorem memSorted_mono {top low low' : Nat} {m : Memory} (hle : low' ≤ low)
    (h : memSorted top low m = true) : memSorted top low' m = true := by
  cases m with
  | nil => rfl
  | cons cx m =>
    obtain ⟨c, x⟩ := cx
    simp only [memSorted, Bool.and_eq_true, decide_eq_true_eq] at h ⊢
    exact ⟨⟨⟨by omega, h.1.1.2⟩, h.1.2⟩, h.2⟩

/-- A write keeps the canonical form from any lower bound up to the address written. -/
theorem memSorted_memWrite {top low : Nat} {m : Memory} {a : Nat} {b : Byte} (h : memSorted top low m = true)
    (hlow : low ≤ a) (htop : a < top) : memSorted top low (memWrite m a b) = true := by
  induction m generalizing low with
  | nil => by_cases hb : b = 0#8 <;> simp [memWrite, memSorted, hb, hlow, htop]
  | cons cx m ih =>
    obtain ⟨c, x⟩ := cx
    have hm := h
    simp only [memSorted, Bool.and_eq_true, decide_eq_true_eq] at h
    obtain ⟨⟨⟨h1, h2⟩, h3⟩, h4⟩ := h
    rcases Nat.lt_trichotomy a c with hac | rfl | hac
    · by_cases hb : b = 0#8
      · simp [memWrite, hac, hb, hm]
      · simp [memWrite, hac, hb, memSorted, hlow, htop, h2, h3, h4, Nat.succ_le_of_lt hac]
    · by_cases hb : b = 0#8
      · simpa [memWrite, hb] using memSorted_mono (by omega) h4
      · simp [memWrite, hb, memSorted, hlow, htop, h4]
    · have n1 : ¬ a < c := by omega
      have n2 : ¬ a = c := by omega
      simp [memWrite, n1, n2, memSorted, h1, h2, h3, ih h4 (by omega)]

/-- A write inside `MEM` keeps the canonical form. -/
theorem wf_memWrite {p : Params} {m : Memory} {a : Nat} (b : Byte) (h : m.wf p = true) (ha : a < 2 ^ p.aw) :
    Memory.wf p (memWrite m a b) = true :=
  memSorted_memWrite h (Nat.zero_le a) ha

/-- Writing a list of bytes inside `MEM` keeps the canonical form. -/
theorem wf_memWriteList {p : Params} {m : Memory} {a : Nat} {bs : List Byte} (h : m.wf p = true)
    (ha : a + bs.length ≤ 2 ^ p.aw) : Memory.wf p (memWriteList m a bs) = true := by
  induction bs generalizing m a with
  | nil => exact h
  | cons b bs ih =>
    simp only [List.length_cons] at ha
    exact ih (wf_memWrite b h (by omega)) (by omega)

/-- The memory of the machine right after reset has the canonical form. -/
theorem wf_reset : State.reset.mem.wf State.reset.params = true := rfl

/-- Reading the address a canonical memory was written at gives the byte written; any other address reads as
before. -/
theorem memRead_memWrite_sorted {top low : Nat} {m : Memory} (h : memSorted top low m = true) (a x : Nat)
    (b : Byte) : memRead (memWrite m a b) x = if x = a then b else memRead m x := by
  have hsym : (a = x) = (x = a) := propext ⟨Eq.symm, Eq.symm⟩
  induction m generalizing low with
  | nil => by_cases hb : b = 0#8 <;> simp [memWrite, memRead, hb, hsym]
  | cons cy m ih =>
    obtain ⟨c, y⟩ := cy
    simp only [memSorted, Bool.and_eq_true, decide_eq_true_eq] at h
    obtain ⟨⟨⟨_, _⟩, _⟩, h4⟩ := h
    rcases Nat.lt_trichotomy a c with hac | rfl | hac
    · by_cases hb : b = 0#8
      · simp only [memWrite, hac, hb, if_true]
        by_cases hx : x = a
        · have hne : c ≠ a := by omega
          simp [hx, memRead, hne, memRead_below h4 (show a < c + 1 by omega)]
        · simp [hx]
      · simp [memWrite, hac, hb, memRead, hsym]
    · by_cases hb : b = 0#8
      · by_cases hx : x = a
        · simp [memWrite, hb, hx, memRead_below h4 (show a < a + 1 by omega)]
        · simp [memWrite, hb, hx, memRead, hsym]
      · by_cases hx : x = a <;> simp [memWrite, hb, memRead, hx, hsym]
    · have n1 : ¬ a < c := by omega
      have n2 : ¬ a = c := by omega
      simp only [memWrite, n1, n2, if_false, memRead, ih h4]
      by_cases hcx : c = x
      · have hne : x ≠ a := by omega
        simp [hcx, hne]
      · simp [hcx]

/-- A read after a write to a memory in canonical form. -/
theorem memRead_memWrite {p : Params} {m : Memory} (h : m.wf p = true) (a x : Nat) (b : Byte) :
    memRead (memWrite m a b) x = if x = a then b else memRead m x :=
  memRead_memWrite_sorted h a x b

end Sys2Proof.Machine
end

