-- ==== Sys2Proof/Laws/Ops.lean ====
section
/-! SUPPORT. For each shared operation one lemma that says all it can do, if it answers a next state, and what
the operation answers when its guard holds. -/

namespace Sys2Proof.Machine

/-- All `encEmit` can do. -/
theorem encEmit_next {s t : State} {i : Nat} {b : Byte} {w : Word} {idx : BitVec 4} {st : EncSt}
    (h : encEmit s i b w idx st = .next t) :
    ∃ hi : i < 10, t = s.withEnc { st := st, w := w, idx := idx, obuf := s.enc.obuf.set i b hi } := by
  unfold encEmit at h
  split at h
  · next hi => exact ⟨hi, by cases h; rfl⟩
  · cases h

/-- `encEmit` writes at an index of `OBUF`. -/
theorem encEmit_of_lt {s : State} {i : Nat} (hi : i < 10) (b : Byte) (w : Word) (idx : BitVec 4) (st : EncSt) :
    encEmit s i b w idx st =
      .next (s.withEnc { st := st, w := w, idx := idx, obuf := s.enc.obuf.set i b hi }) := by
  simp [encEmit, hi]

/-- All `decReadByte` can do: the byte handed on is the one of `MEM` at `a`, in bounds. -/
theorem decReadByte_next {st : DecSt} {a : Nat} {s t : State} {handle : Byte → State → Answer}
    (h : decReadByte st a s handle = .next t) :
    s.dec.st = st ∧ a ≤ s.dec.last ∧ a < 2 ^ s.params.aw ∧ handle (memRead s.mem a) s = .next t := by
  unfold decReadByte memByte? addressFits at h
  split at h
  · next hg =>
    by_cases ha : a < 2 ^ s.params.aw
    · simp only [ha, decide_true, if_true] at h
      exact ⟨hg.1, hg.2, ha, h⟩
    · simp [ha] at h
  · cases h

/-- `decReadByte` hands on the byte at `a` when the unit is in the state asked for and `a` is in bounds. -/
theorem decReadByte_of_inb {st : DecSt} {a : Nat} {s : State} (hst : s.dec.st = st) (hin : a ≤ s.dec.last)
    (ha : a < 2 ^ s.params.aw) (handle : Byte → State → Answer) :
    decReadByte st a s handle = handle (memRead s.mem a) s := by
  simp [decReadByte, memByte?, addressFits, hst, hin, ha]

/-- All `takeSingle` can do. -/
theorem takeSingle_next {b : Byte} {s t : State} (h : takeSingle b s = .next t) :
    s.dec.st = .first ∧ s.dec.start ≤ s.dec.last ∧ byteGe240 b = false ∧
      t = s.withDec { s.dec with acc := b.setWidth 64, st := .done } := by
  unfold takeSingle at h
  split at h
  · next hg => exact ⟨hg.1, hg.2.1, hg.2.2, by cases h; rfl⟩
  · cases h

/-- All `takePrefix` can do. -/
theorem takePrefix_next {b : Byte} {s t : State} (h : takePrefix b s = .next t) :
    s.dec.st = .first ∧ s.dec.start ≤ s.dec.last ∧ byteGe240 b = true ∧
      t = s.withDec { s.dec with acc := b.setWidth 64, off := 1, st := .accum } := by
  unfold takePrefix at h
  split at h
  · next hg => exact ⟨hg.1, hg.2.1, hg.2.2, by cases h; rfl⟩
  · cases h

/-- All `takeCont` can do. -/
theorem takeCont_next {b : Byte} {s t : State} (h : takeCont b s = .next t) :
    s.dec.st = .accum ∧ decInb s.dec = true ∧ byteGe128 b = true ∧
      t = (s.withDec { s.dec with
            acc := (accumulate s.params.decOvf s.dec.acc b s.dec.off s.draws).1
            off := s.dec.off + 1 }).withDraws
          (accumulate s.params.decOvf s.dec.acc b s.dec.off s.draws).2 := by
  unfold takeCont at h
  split at h
  · next hg => exact ⟨hg.1, hg.2.1, hg.2.2, by cases h; rfl⟩
  · cases h

/-- All `takeFinal` can do. -/
theorem takeFinal_next {b : Byte} {s t : State} (h : takeFinal b s = .next t) :
    s.dec.st = .accum ∧ decInb s.dec = true ∧ byteGe128 b = false ∧
      t = (s.withDec { s.dec with
            acc := (accumulate s.params.decOvf s.dec.acc b s.dec.off s.draws).1
            st := .done }).withDraws
          (accumulate s.params.decOvf s.dec.acc b s.dec.off s.draws).2 := by
  unfold takeFinal at h
  split at h
  · next hg => exact ⟨hg.1, hg.2.1, hg.2.2, by cases h; rfl⟩
  · cases h

/-- All `accumulate` can do: the sum cut to 64 bits, but for a sum that does not fit under `any`. -/
theorem accumulate_exact {o : DecOvf} {acc : Word} {b : Byte} {k draws : Nat}
    (h : o = .wrap ∨ acc.toNat + shiftedByte b k < 2 ^ 64) :
    accumulate o acc b k draws = (BitVec.ofNat 64 (acc.toNat + shiftedByte b k), draws) := by
  unfold accumulate
  rcases h with rfl | h
  · split <;> rfl
  · rw [if_pos h]

/-- A sum that does not fit under `any` is a free value. -/
theorem accumulate_draw {acc : Word} {b : Byte} {k draws : Nat}
    (h : ¬ acc.toNat + shiftedByte b k < 2 ^ 64) :
    accumulate .any acc b k draws = (Config.freeWord draws, draws + 1) := by
  unfold accumulate
  rw [if_neg h]

/-- When the host may write: `DEC` is at rest, or no byte written lies in its range. -/
theorem hostMayWrite_iff (d : Dec) (a n : Nat) :
    hostMayWrite d a n = true ↔
      (d.st = .idle ∨ d.st = .done) ∨ ∀ x, a ≤ x → x < a + n → ¬ (d.start ≤ x ∧ x ≤ d.last) := by
  simp only [hostMayWrite, Bool.or_eq_true, decide_eq_true_eq, decAtRest_iff]
  constructor
  · rintro ((((h | h) | h) | h) | h)
    · exact .inl h
    all_goals exact .inr fun x h1 h2 h3 => by omega
  · rintro (h | h)
    · exact .inl (.inl (.inl (.inl h)))
    · have h1 := h a
      have h2 := h d.start
      by_cases hn : n = 0
      · exact .inl (.inl (.inl (.inr hn)))
      · by_cases hs : d.last < d.start
        · exact .inl (.inl (.inr hs))
        · by_cases hb : a + n ≤ d.start
          · exact .inl (.inr hb)
          · exact .inr (by omega)

/-- What `hostWrite` answers for bytes inside `MEM`: it writes when it may, else it waits. -/
theorem hostWrite_of_fits {s : State} {a : Nat} {bytes : List Byte} (h : a + bytes.length ≤ 2 ^ s.params.aw)
    (rest : List HostAction) :
    hostWrite s a bytes rest =
      if hostMayWrite s.dec a bytes.length = true then
        .next ((s.withMem (memWriteList s.mem a bytes)).withScript rest)
      else .next s := by
  rw [hostWrite, if_neg (by omega)]

/-- All `hostWrite` can do: it waits, or it writes inside `MEM` and goes on. -/
theorem hostWrite_next {s t : State} {a : Nat} {bytes : List Byte} {rest : List HostAction}
    (h : hostWrite s a bytes rest = .next t) :
    a + bytes.length ≤ 2 ^ s.params.aw ∧
      (t = s ∨ (hostMayWrite s.dec a bytes.length = true ∧
        t = (s.withMem (memWriteList s.mem a bytes)).withScript rest)) := by
  unfold hostWrite at h
  split at h
  · cases h
  · next hlt =>
    refine ⟨by omega, ?_⟩
    split at h
    · next hm => exact .inr ⟨hm, by cases h; rfl⟩
    · exact .inl (by cases h; rfl)

/-- A run of `n + 1` moves is a move and a run of `n`. -/
theorem agentRun_succ {a : Agent} {n : Nat} {s t : State} (h : agentMove a s = .next t) :
    agentRun a (n + 1) s = agentRun a n t := by
  simp [agentRun, h]

end Sys2Proof.Machine
end

