-- ==== Sys2Proof/Laws/Exec.lean ====
section
/-! SUPPORT. All that a request or an `OOB` step can do, if it answers a next state; the byte steps are covered
by the lemmas on the operations they call. -/

namespace Sys2Proof.Machine

theorem execEncStart_next {v : Word} {s t : State} (h : exec (.encStart v) s = .next t) :
    (s.enc.st = .idle ∨ s.enc.st = .done) ∧
      t = s.withEnc { s.enc with w := v, idx := 0, st := .first } := by
  simp only [exec, execEncStart] at h
  by_cases hr : encAtRest s.enc = true
  · rw [if_pos hr] at h; cases h; exact ⟨(encAtRest_iff _).1 hr, rfl⟩
  · rw [if_neg hr] at h; cases h

theorem execEncode_next {v : Word} {s t : State} (h : exec (.encode v) s = .next t) :
    (s.enc.st = .idle ∨ s.enc.st = .done) ∧
      t = s.withEnc { st := .done
                      w := BitVec.ofNat 64 (encLastWork v.toNat)
                      idx := BitVec.ofNat 4 (encSeq v.toNat).length
                      obuf := obufWrite s.enc.obuf 0 (encSeq v.toNat) } := by
  simp only [exec, execEncode] at h
  by_cases hr : encAtRest s.enc = true
  · rw [if_pos hr] at h; cases h; exact ⟨(encAtRest_iff _).1 hr, rfl⟩
  · rw [if_neg hr] at h; cases h

theorem execEncSingle_next {s t : State} (h : exec .encSingle s = .next t) :
    s.enc.st = .first ∧ encGe240 s.enc = false ∧
      t = s.withEnc { st := .done, w := s.enc.w, idx := 1, obuf := s.enc.obuf.set 0 (singleOf s.enc.w) } := by
  simp only [exec, execEncSingle] at h
  split at h
  · next hg => obtain ⟨_, rfl⟩ := encEmit_next h; exact ⟨hg.1, hg.2, rfl⟩
  · cases h

theorem execEncPrefix_next {s t : State} (h : exec .encPrefix s = .next t) :
    s.enc.st = .first ∧ encGe240 s.enc = true ∧
      t = s.withEnc { st := .chain, w := workAfterPrefix s.enc.w, idx := 1,
                      obuf := s.enc.obuf.set 0 (prefixOf s.enc.w) } := by
  simp only [exec, execEncPrefix] at h
  split at h
  · next hg => obtain ⟨_, rfl⟩ := encEmit_next h; exact ⟨hg.1, hg.2, rfl⟩
  · cases h

theorem execEncCont_next {s t : State} (h : exec .encCont s = .next t) :
    s.enc.st = .chain ∧ encGe128 s.enc = true ∧ ∃ hi : s.enc.idx.toNat < 10,
      t = s.withEnc { st := .chain, w := workAfterCont s.enc.w, idx := s.enc.idx + 1,
                      obuf := s.enc.obuf.set s.enc.idx.toNat (contOf s.enc.w) hi } := by
  simp only [exec, execEncCont] at h
  split at h
  · next hg => obtain ⟨hi, rfl⟩ := encEmit_next h; exact ⟨hg.1, hg.2, hi, rfl⟩
  · cases h

theorem execEncFinal_next {s t : State} (h : exec .encFinal s = .next t) :
    s.enc.st = .chain ∧ encGe128 s.enc = false ∧ ∃ hi : s.enc.idx.toNat < 10,
      t = s.withEnc { st := .done, w := s.enc.w, idx := s.enc.idx + 1,
                      obuf := s.enc.obuf.set s.enc.idx.toNat (finalOf s.enc.w) hi } := by
  simp only [exec, execEncFinal] at h
  split at h
  · next hg => obtain ⟨hi, rfl⟩ := encEmit_next h; exact ⟨hg.1, hg.2, hi, rfl⟩
  · cases h

theorem execDecStart_next {a e : Nat} {s t : State} (h : exec (.decStart a e) s = .next t) :
    (s.dec.st = .idle ∨ s.dec.st = .done) ∧ a < 2 ^ s.params.aw ∧ e < 2 ^ s.params.aw ∧
      t = decAccept s a e := by
  simp only [exec, execDecStart] at h
  by_cases hr : decAtRest s.dec = true
  · rw [if_pos hr] at h
    split at h
    · next hf =>
      rw [Bool.and_eq_true, addressFits_iff, addressFits_iff] at hf
      cases h; exact ⟨(decAtRest_iff _).1 hr, hf.1, hf.2, rfl⟩
    · cases h
  · rw [if_neg hr] at h; cases h

theorem execDecode_next {a e : Nat} {s t : State} (h : exec (.decode a e) s = .next t) :
    (s.dec.st = .idle ∨ s.dec.st = .done) ∧ a < 2 ^ s.params.aw ∧ e < 2 ^ s.params.aw ∧
      t = (s.withDec { st := .done, start := a, last := e
                       acc := (decodeRange s.params.decOvf s.mem a e s.dec.acc s.draws).acc
                       off := (decodeRange s.params.decOvf s.mem a e s.dec.acc s.draws).off
                       status := (decodeRange s.params.decOvf s.mem a e s.dec.acc s.draws).status }).withDraws
          (decodeRange s.params.decOvf s.mem a e s.dec.acc s.draws).draws := by
  simp only [exec, execDecode] at h
  by_cases hr : decAtRest s.dec = true
  · rw [if_pos hr] at h
    split at h
    · next hf =>
      rw [Bool.and_eq_true, addressFits_iff, addressFits_iff] at hf
      cases h; exact ⟨(decAtRest_iff _).1 hr, hf.1, hf.2, rfl⟩
    · cases h
  · rw [if_neg hr] at h; cases h

theorem execDecOob0_next {s t : State} (h : exec .decOob0 s = .next t) :
    s.dec.st = .first ∧ s.dec.last < s.dec.start ∧ t = raiseOutOfBounds s := by
  simp only [exec, execDecOob0] at h
  split at h
  · next hg => cases h; exact ⟨hg.1, hg.2, rfl⟩
  · cases h

theorem execDecOobk_next {s t : State} (h : exec .decOobk s = .next t) :
    s.dec.st = .accum ∧ s.dec.last < s.dec.start + s.dec.off ∧ t = raiseOutOfBounds s := by
  simp only [exec, execDecOobk] at h
  split at h
  · next hg => cases h; exact ⟨hg.1, by simpa [decInb] using hg.2, rfl⟩
  · cases h

theorem execDecSingle_next {s t : State} (h : exec .decSingle s = .next t) :
    s.dec.start < 2 ^ s.params.aw ∧ takeSingle (memRead s.mem s.dec.start) s = .next t :=
  (decReadByte_next (show decReadByte _ _ _ _ = _ from h)).2.2

theorem execDecPrefix_next {s t : State} (h : exec .decPrefix s = .next t) :
    s.dec.start < 2 ^ s.params.aw ∧ takePrefix (memRead s.mem s.dec.start) s = .next t :=
  (decReadByte_next (show decReadByte _ _ _ _ = _ from h)).2.2

theorem execDecCont_next {s t : State} (h : exec .decCont s = .next t) :
    s.dec.start + s.dec.off < 2 ^ s.params.aw ∧
      takeCont (memRead s.mem (s.dec.start + s.dec.off)) s = .next t :=
  (decReadByte_next (show decReadByte _ _ _ _ = _ from h)).2.2

theorem execDecFinal_next {s t : State} (h : exec .decFinal s = .next t) :
    s.dec.start + s.dec.off < 2 ^ s.params.aw ∧
      takeFinal (memRead s.mem (s.dec.start + s.dec.off)) s = .next t :=
  (decReadByte_next (show decReadByte _ _ _ _ = _ from h)).2.2

end Sys2Proof.Machine
end

