-- ==== Sys2Proof/Laws/Format.lean ====
section
/-! SUPPORT. What the functions of the format can do: where the loop of `DECODE` ends, what a write to `OBUF`
leaves, and the bytes of `MEM` as a list. -/

namespace Sys2Proof.Machine

@[simp] theorem memSlice_zero (m : Memory) (a : Nat) : memSlice m a 0 = [] := rfl

theorem memSlice_succ (m : Memory) (a n : Nat) : memSlice m a (n + 1) = memRead m a :: memSlice m (a + 1) n := by
  simp only [memSlice, List.range_succ_eq_map, List.map_cons, List.map_map, Nat.add_zero]
  congr 1
  exact List.map_congr_left fun x _ => by simp [Nat.add_assoc, Nat.add_comm 1]

@[simp] theorem memSlice_length (m : Memory) (a n : Nat) : (memSlice m a n).length = n := by
  simp [memSlice]

/-- Where the loop of `DECODE` ends: inside the range after a success, at the first byte past it after a failure. -/
theorem decodeLoop_end (o : DecOvf) (m : Memory) (start left k : Nat) (acc : Word) (draws : Nat) :
    ((decodeLoop o m start left k acc draws).status = .ok ∧
      k ≤ (decodeLoop o m start left k acc draws).off ∧
      (decodeLoop o m start left k acc draws).off < k + left) ∨
    ((decodeLoop o m start left k acc draws).status = .oob ∧
      (decodeLoop o m start left k acc draws).off = k + left) := by
  induction left generalizing k acc draws with
  | zero => exact .inr ⟨rfl, rfl⟩
  | succ left ih =>
    simp only [decodeLoop]
    split
    · rcases ih (k + 1) (accumulate o acc (memRead m (start + k)) k draws).1
        (accumulate o acc (memRead m (start + k)) k draws).2 with ⟨h1, h2, h3⟩ | ⟨h1, h2⟩
      · exact .inl ⟨h1, by omega, by omega⟩
      · exact .inr ⟨h1, by omega⟩
    · exact .inl ⟨rfl, Nat.le_refl k, by show k < k + (left + 1); omega⟩

/-- Where `DECODE` ends. -/
theorem decodeRange_end (o : DecOvf) (m : Memory) (start last : Nat) (stale : Word) (draws : Nat) :
    ((decodeRange o m start last stale draws).status = .ok ∧
      start + (decodeRange o m start last stale draws).off ≤ last) ∨
    ((decodeRange o m start last stale draws).status = .oob ∧
      (decodeRange o m start last stale draws).off = last + 1 - start) := by
  unfold decodeRange
  split
  · exact .inr ⟨rfl, by show 0 = last + 1 - start; omega⟩
  · split
    · rcases decodeLoop_end o m start (last - start) 1 ((memRead m start).setWidth 64) draws with
        ⟨h1, _, h3⟩ | ⟨h1, h2⟩
      · exact .inl ⟨h1, by omega⟩
      · exact .inr ⟨h1, by omega⟩
    · exact .inl ⟨rfl, by show start + 0 ≤ last; omega⟩

/-- A byte of `OBUF` after a list of bytes is written from index `i` on. -/
theorem obufWrite_get (o : Vector Byte 10) (i : Nat) (bs : List Byte) (j : Nat) (hj : j < 10) :
    (obufWrite o i bs)[j]? = if i ≤ j ∧ j < i + bs.length then bs[j - i]? else o[j]? := by
  induction bs generalizing o i with
  | nil =>
    have h : ¬ (i ≤ j ∧ j < i + ([] : List Byte).length) := by simp
    rw [if_neg h]; rfl
  | cons b bs ih =>
    rw [obufWrite, ih]
    simp only [List.length_cons]
    rcases Nat.lt_trichotomy i j with h | rfl | h
    · by_cases h2 : j < i + 1 + bs.length
      · rw [if_pos ⟨h, h2⟩, if_pos ⟨by omega, by omega⟩, show j - i = (j - (i + 1)) + 1 by omega,
          List.getElem?_cons_succ]
      · rw [if_neg (by omega), if_neg (by omega)]
        simp [show i ≠ j by omega]
    · rw [if_neg (by omega), if_pos (by omega)]
      simp [hj]
    · rw [if_neg (by omega), if_neg (by omega)]
      simp [show i ≠ j by omega]

end Sys2Proof.Machine
end

