-- ==== Sys2Proof/Laws/PerInstr.lean ====
section
/-! SUPPORT. A fact about every instruction as syntax, one lemma per constructor: which rows of the opcode
table have a byte, and in which match and mask that byte lies (spec/30_encoding.md R80, R81). -/

namespace Sys2Proof.Laws.RowByte

/-- The match and mask of a row's byte as the opcode table gives them. -/
def rowMask : Instr → Byte × Byte
  | .byteSingleA _ => (0x80, 0x00)
  | .byteSingleB _ => (0xC0, 0x80)
  | .byteSingleC _ => (0xE0, 0xC0)
  | .byteSingleD _ => (0xF0, 0xE0)
  | .bytePrefix _ => (0xF0, 0xF0)
  | .byteCont _ => (0x80, 0x80)
  | .byteFinal _ => (0x80, 0x00)
  | .encode _ => (0, 0)
  | .decode _ _ => (0, 0)
  | .encStart _ => (0, 0)
  | .encSingle => (0, 0)
  | .encPrefix => (0, 0)
  | .encCont => (0, 0)
  | .encFinal => (0, 0)
  | .decStart _ _ => (0, 0)
  | .decOob0 => (0, 0)
  | .decSingle => (0, 0)
  | .decPrefix => (0, 0)
  | .decOobk => (0, 0)
  | .decCont => (0, 0)
  | .decFinal => (0, 0)

/-- A well-formed instruction has a byte exactly when it has a position, and the byte lies in its row. -/
def Statement (i : Instr) : Prop :=
  ∀ p : Params, wellFormed p i = true →
    (position i = none ∧ encode i = []) ∨
    ((position i).isSome ∧ ∃ b, encode i = [b] ∧ inRow (rowMask i).1 (rowMask i).2 b = true)

theorem encode (value : Word) : Statement (.encode value) := fun _ _ => .inl ⟨rfl, rfl⟩
theorem decode (start last : Nat) : Statement (.decode start last) := fun _ _ => .inl ⟨rfl, rfl⟩
theorem encStart (value : Word) : Statement (.encStart value) := fun _ _ => .inl ⟨rfl, rfl⟩
theorem encSingle : Statement .encSingle := fun _ _ => .inl ⟨rfl, rfl⟩
theorem encPrefix : Statement .encPrefix := fun _ _ => .inl ⟨rfl, rfl⟩
theorem encCont : Statement .encCont := fun _ _ => .inl ⟨rfl, rfl⟩
theorem encFinal : Statement .encFinal := fun _ _ => .inl ⟨rfl, rfl⟩
theorem decStart (start last : Nat) : Statement (.decStart start last) := fun _ _ => .inl ⟨rfl, rfl⟩
theorem decOob0 : Statement .decOob0 := fun _ _ => .inl ⟨rfl, rfl⟩
theorem decSingle : Statement .decSingle := fun _ _ => .inl ⟨rfl, rfl⟩
theorem decPrefix : Statement .decPrefix := fun _ _ => .inl ⟨rfl, rfl⟩
theorem decOobk : Statement .decOobk := fun _ _ => .inl ⟨rfl, rfl⟩
theorem decCont : Statement .decCont := fun _ _ => .inl ⟨rfl, rfl⟩
theorem decFinal : Statement .decFinal := fun _ _ => .inl ⟨rfl, rfl⟩
theorem byteSingleA (v : Byte) : Statement (.byteSingleA v) := fun _ h => .inr ⟨rfl, v, rfl, h⟩
theorem byteSingleB (v : Byte) : Statement (.byteSingleB v) := fun _ h => .inr ⟨rfl, v, rfl, h⟩
theorem byteSingleC (v : Byte) : Statement (.byteSingleC v) := fun _ h => .inr ⟨rfl, v, rfl, h⟩
theorem byteSingleD (v : Byte) : Statement (.byteSingleD v) := fun _ h => .inr ⟨rfl, v, rfl, h⟩
theorem bytePrefix (n : BitVec 4) : Statement (.bytePrefix n) := fun _ _ =>
  .inr ⟨rfl, prefixByte n, rfl, Machine.prefixByte_inRow n⟩
theorem byteCont (p : BitVec 7) : Statement (.byteCont p) := fun _ _ =>
  .inr ⟨rfl, contByte p, rfl, Machine.contByte_inRow p⟩
theorem byteFinal (p : BitVec 7) : Statement (.byteFinal p) := fun _ _ =>
  .inr ⟨rfl, finalByte p, rfl, Machine.finalByte_inRow p⟩

end Sys2Proof.Laws.RowByte
end

