-- ==== Sys2Proof/Tests/Slice0.lean ====
section
/-! SUPPORT. Tests of the model: the smoke tests of WellFormed, bytes decoded, one step per test from the vectors
of spec/95_test_vectors.md, and one witness per statement that has hypotheses. -/

namespace Sys2Proof.Tests

open Sys2Proof.Machine

/-! Small states. -/

/-- `ENC` in the state `st`, after reset else. -/
def encAt (st : EncSt) (w idx : Nat) : State :=
  State.reset.withEnc { st := st, w := BitVec.ofNat 64 w, idx := BitVec.ofNat 4 idx, obuf := Vector.replicate 10 0 }

/-- `DEC` in the state `st` over the memory `m`, after reset else. -/
def decAt (st : DecSt) (a e off acc : Nat) (m : Memory) : State :=
  (State.reset.withDec
    { st := st, start := a, last := e, acc := BitVec.ofNat 64 acc, off := off, status := .ok }).withMem m

/-- A state with the parameter `DEC_OVF = any`. -/
def underAny (s : State) : State := { s with params := { aw := 64, decOvf := .any } }

/-- `ENC.ST`, `ENC.W`, `ENC.IDX` and one byte of `OBUF` after a move. -/
def encAfter (r : Answer) (i : Nat) : Option (EncSt × Nat × Nat × Option Byte) :=
  match r with
  | .next t => some (t.enc.st, t.enc.w.toNat, t.enc.idx.toNat, t.enc.obuf[i]?)
  | .fault _ => none
  | .refused _ => none

/-- `DEC.ST`, `DEC.OFF`, `DEC.ACC` and `DEC.STATUS` after a move. -/
def decAfter (r : Answer) : Option (DecSt × Nat × Nat × Status) :=
  match r with
  | .next t => some (t.dec.st, t.dec.off, t.dec.acc.toNat, t.dec.status)
  | .fault _ => none
  | .refused _ => none

/-- The encoder's response after a move. -/
def encSaid (r : Answer) : Option (List Byte) :=
  match r with
  | .next t => encResponse? t.enc
  | .fault _ => none
  | .refused _ => none

/-- The decoder's response after a move. -/
def decSaid (r : Answer) : Option DecResponse :=
  match r with
  | .next t => decResponse? t.dec
  | .fault _ => none
  | .refused _ => none

/-- The memory `F0 95 E7 02` from address 0, the encoding of 1000000. -/
def million : Memory := [(0, 0xF0), (1, 0x95), (2, 0xE7), (3, 0x02)]

/-! WellFormed: one ill-formed term for each check (spec/10_state.md R41, spec/30_encoding.md R80). -/

theorem test_decode_start_too_wide : wellFormed Config.resetParams (.decode (2 ^ 64) 0) = false := by decide
theorem test_decode_end_too_wide : wellFormed Config.resetParams (.decode 0 (2 ^ 64)) = false := by decide
theorem test_decStart_start_too_wide : wellFormed Config.resetParams (.decStart (2 ^ 64) 0) = false := by decide
theorem test_decStart_end_too_wide : wellFormed Config.resetParams (.decStart 0 (2 ^ 64)) = false := by decide
theorem test_decode_top_fits : wellFormed Config.resetParams (.decode (2 ^ 64 - 1) (2 ^ 64 - 1)) = true := by decide
theorem test_singleA_out_of_row : wellFormed Config.resetParams (.byteSingleA 0x80) = false := by decide
theorem test_singleB_out_of_row : wellFormed Config.resetParams (.byteSingleB 0xC0) = false := by decide
theorem test_singleC_out_of_row : wellFormed Config.resetParams (.byteSingleC 0xE0) = false := by decide
theorem test_singleD_out_of_row : wellFormed Config.resetParams (.byteSingleD 0xF0) = false := by decide

/-! Decoding: bytes written out from the patterns of spec/30_encoding.md R80, at the ends of each row. -/

theorem test_decode_singleA : decodeByte .first 0b01111111 = .byteSingleA 0b01111111 := by decide
theorem test_decode_singleB : decodeByte .first 0b10111111 = .byteSingleB 0b10111111 := by decide
theorem test_decode_singleC : decodeByte .first 0b11000000 = .byteSingleC 0b11000000 := by decide
theorem test_decode_singleD : decodeByte .first 0b11101111 = .byteSingleD 0b11101111 := by decide
theorem test_decode_prefix : decodeByte .first 0b11110110 = .bytePrefix 0b0110 := by decide
theorem test_decode_cont : decodeByte .later 0b11110110 = .byteCont 0b1110110 := by decide
theorem test_decode_final : decodeByte .later 0b01100001 = .byteFinal 0b1100001 := by decide
theorem test_decode_nothing : (decode .first []).isOk = false := by decide
/-- spec/95_test_vectors.md DV13 with a byte after it. -/
theorem test_decode_sequence : (decodeSeq [0xF0, 0x95, 0xE7, 0x02, 0xAA]).toOption =
    some ([.bytePrefix 0, .byteCont 0x15, .byteCont 0x67, .byteFinal 0x02], [0xAA]) := by decide
/-- spec/95_test_vectors.md OV10: `P C*` to the end is no sequence. -/
theorem test_decode_unterminated : (decodeSeq [0xF0, 0x80, 0x80, 0x80]).isOk = false := by decide
theorem test_table_word : decodeTableWord 8 0xD2 = some (.byteSingleC 0xD2) := by decide
theorem test_table_word_empty : decodeTableWord 0 0 = none := by decide

/-! The encoder's steps (spec/95_test_vectors.md section 2.3). -/

/-- ES1. -/
theorem test_ES1_start : encAfter (exec (.encStart 300) (encAt .idle 9 0)) 0 = some (.first, 300, 0, some 0) := by decide
/-- spec/40_encoder.md R93: a busy unit takes no request. -/
theorem test_start_while_chain : encAfter (exec (.encStart 0) (encAt .chain 0 1)) 0 = none := by decide
/-- ES4. -/
theorem test_ES4_single : encAfter (exec .encSingle (encAt .first 239 0)) 0 = some (.done, 239, 1, some 0xEF) := by decide
/-- ES5: 240 is no single byte. -/
theorem test_ES5_not_single : encAfter (exec .encSingle (encAt .first 240 0)) 0 = none := by decide
/-- ES8. -/
theorem test_ES8_prefix : encAfter (exec .encPrefix (encAt .first 18446744073709551615 0)) 0 =
    some (.chain, 1152921504606846960, 1, some 0xFF) := by decide
/-- ES7. -/
theorem test_ES7_prefix : encAfter (exec .encPrefix (encAt .first 256 0)) 0 = some (.chain, 1, 1, some 0xF0) := by decide
/-- ES11. -/
theorem test_ES11_cont : encAfter (exec .encCont (encAt .chain 16512 1)) 1 = some (.chain, 128, 2, some 0x80) := by decide
/-- ES13. -/
theorem test_ES13_cont : encAfter (exec .encCont (encAt .chain 2046 8)) 8 = some (.chain, 14, 9, some 0xFE) := by decide
/-- ES15. -/
theorem test_ES15_final : encAfter (exec .encFinal (encAt .chain 127 1)) 1 = some (.done, 127, 2, some 0x7F) := by decide
/-- ES16. -/
theorem test_ES16_final : encAfter (exec .encFinal (encAt .chain 14 9)) 9 = some (.done, 14, 10, some 0x0E) := by decide
/-- EV22. -/
theorem test_EV22_encode : encSaid (exec (.encode 1000000) (encAt .done 2 4)) = some [0xF0, 0x95, 0xE7, 0x02] := by decide
/-- EV35: the greatest value takes ten bytes (spec/90_conflicts.md C1). -/
theorem test_EV35_encode : encSaid (exec (.encode 18446744073709551615) (encAt .idle 0 0)) =
    some [0xFF, 0xF0, 0xFE, 0xFE, 0xFE, 0xFE, 0xFE, 0xFE, 0xFE, 0x0E] := by decide

/-! The decoder's steps (spec/95_test_vectors.md section 3.4) and operations (sections 3.1 to 3.3). -/

/-- DS2. -/
theorem test_DS2_start : decAfter (exec (.decStart 4 9) (decAt .done 0 0 1 240 [])) = some (.first, 0, 240, .ok) := by
  decide
/-- spec/41_decoder.md R113: a busy unit takes no request. -/
theorem test_start_while_accum : decAfter (exec (.decStart 4 9) (decAt .accum 0 0 1 240 [])) = none := by decide
/-- DS3. -/
theorem test_DS3_oob0 : decAfter (exec .decOob0 (decAt .first 5 4 0 3 [])) = some (.done, 0, 3, .oob) := by decide
/-- A range of one byte is not empty. -/
theorem test_oob0_one_byte : decAfter (exec .decOob0 (decAt .first 5 5 0 3 [])) = none := by decide
/-- DS4. -/
theorem test_DS4_single : decAfter (exec .decSingle (decAt .first 7 20 0 3 [(7, 0xEF)])) = some (.done, 0, 239, .ok) := by
  decide
/-- DS7: the byte is not masked. -/
theorem test_DS7_prefix : decAfter (exec .decPrefix (decAt .first 0 1 0 3 [(0, 0xFF)])) = some (.accum, 1, 255, .ok) := by
  decide
/-- DS9. -/
theorem test_DS9_oobk : decAfter (exec .decOobk (decAt .accum 16 18 3 475712 [])) = some (.done, 3, 475712, .oob) := by
  decide
/-- DS12. -/
theorem test_DS12_cont : decAfter (exec .decCont (decAt .accum 0 3 2 2624 million)) = some (.accum, 3, 475712, .ok) := by
  decide
/-- DS13: a shift of 67. -/
theorem test_DS13_cont : decAfter (exec .decCont (decAt .accum 0 10 10 1161999626690365679 [(10, 0xFF)])) =
    some (.accum, 11, 1161999626690365679, .ok) := by decide
/-- DS16. -/
theorem test_DS16_final : decAfter (exec .decFinal (decAt .accum 0 3 3 475712 million)) =
    some (.done, 3, 1000000, .ok) := by decide
/-- DS17: a shift of 60. -/
theorem test_DS17_final : decAfter (exec .decFinal (decAt .accum 0 9 9 2305843009213693951 [(9, 0x0E)])) =
    some (.done, 9, 18446744073709551615, .ok) := by decide
/-- DV14: an `END` far past the sequence. -/
theorem test_DV14_decode : decSaid (exec (.decode 0 100) (decAt .idle 0 0 0 0 million)) = some (.ok 1000000 4) := by
  decide
/-- XV1: `NAT = 2^64` is accepted and wraps to 0. -/
theorem test_XV1_decode : decSaid (exec (.decode 0 9) (decAt .done 3 4 5 6
    [(0, 0xF0), (1, 0xF1), (2, 0xFE), (3, 0xFE), (4, 0xFE), (5, 0xFE), (6, 0xFE), (7, 0xFE), (8, 0xFE), (9, 0x0E)])) =
    some (.ok 0 10) := by decide
/-- XV1 under `any`: the decode still succeeds and still consumes ten bytes. -/
theorem test_XV1_any : (match exec (.decode 0 9) (underAny (decAt .done 3 4 5 6
    [(0, 0xF0), (1, 0xF1), (2, 0xFE), (3, 0xFE), (4, 0xFE), (5, 0xFE), (6, 0xFE), (7, 0xFE), (8, 0xFE), (9, 0x0E)])) with
    | .next t => decide (t.dec.st = .done ∧ t.dec.status = .ok ∧ t.dec.off = 9 ∧ t.draws = 1)
    | .fault _ => false
    | .refused _ => false) = true := rfl

/-! The byte classes: the step vectors again, with the byte as the operand. -/

theorem test_byteSingleA : decAfter (exec (.byteSingleA 0x00) (decAt .first 0 0 0 3 [])) = some (.done, 0, 0, .ok) := by
  decide
/-- DV3: a first byte 80 is the value 128 (spec/90_conflicts.md C3). -/
theorem test_byteSingleB : decAfter (exec (.byteSingleB 0x80) (decAt .first 0 1 0 3 [])) = some (.done, 0, 128, .ok) := by
  decide
theorem test_byteSingleC : decAfter (exec (.byteSingleC 0xDF) (decAt .first 0 1 0 3 [])) = some (.done, 0, 223, .ok) := by
  decide
/-- DS4. -/
theorem test_byteSingleD : decAfter (exec (.byteSingleD 0xEF) (decAt .first 7 20 0 3 [])) = some (.done, 0, 239, .ok) := by
  decide
/-- DS6. -/
theorem test_bytePrefix : decAfter (exec (.bytePrefix 0) (decAt .first 0 3 0 3 [])) = some (.accum, 1, 240, .ok) := by
  decide
/-- DS10. -/
theorem test_byteCont : decAfter (exec (.byteCont 0x15) (decAt .accum 0 3 1 240 [])) = some (.accum, 2, 2624, .ok) := by
  decide
/-- DS14. -/
theorem test_byteFinal : decAfter (exec (.byteFinal 0x2F) (decAt .accum 0 1 1 248 [])) = some (.done, 1, 1000, .ok) := by
  decide

/-! The step. -/

/-- The byte placed by `withFetchWord` is the one the next step runs. -/
theorem test_fetch_single : step (State.reset.withFetchWord 8 0xE5) =
    exec (.byteSingleD 0xE5) (State.reset.withFetchWord 8 0xE5) := rfl
theorem test_fetch_prefix : decAfter (step (State.reset.withFetchWord 8 0xF8)) = some (.accum, 1, 248, .ok) := by decide
/-- spec/70_reset_and_hazards.md R176 row 4: the host waits before it writes into a range that is being decoded. -/
theorem test_host_waits : (match hostMove ((decAt .accum 0 3 1 240 million).withScript [.set 3 [0xFF]]) with
    | .next t => decide (t.mem = million ∧ t.script = [.set 3 [0xFF]])
    | .fault _ => false
    | .refused _ => false) = true := by decide
/-- The same row: it writes outside the range at once. -/
theorem test_host_writes_outside : (match hostMove ((decAt .accum 0 3 1 240 million).withScript [.set 4 [0xFF]]) with
    | .next t => decide (t.mem = million ++ [(4, 0xFF)] ∧ t.script = [])
    | .fault _ => false
    | .refused _ => false) = true := by decide

/-- A busy decoder over an empty range keeps no byte of `MEM` from the host (`DEC 5, 2`, then `SET 1` of six bytes). -/
theorem test_host_writes_over_empty_range : (match hostMove ((decAt .first 5 2 0 0 []).withScript
    [.set 1 [0x11, 0x12, 0x13, 0x14, 0x15, 0x16]]) with
    | .next t => decide (t.mem = [(1, 0x11), (2, 0x12), (3, 0x13), (4, 0x14), (5, 0x15), (6, 0x16)] ∧ t.script = [])
    | .fault _ => false
    | .refused _ => false) = true := by decide

/-! Witnesses: for each statement with hypotheses a state and operands that meet all of them together, clause by
clause, at the ends of their ranges. -/

/-- Both units at rest over the memory `m`. -/
def restAt (m : Memory) : State := decAt .idle 0 0 0 0 m

theorem witness_EncStartLatchesTheValue :
    (encAt .idle 0 0).enc.st = .idle ∧ (encAt .done 0 1).enc.st = .done ∧ (encAt .first 0 0).enc.st = .first ∧
    (encAt .chain 0 1).enc.st = .chain := by decide

theorem witness_EncSingleEmitsTheValue :
    (encAt .first 239 0).enc.st = .first ∧ (encAt .first 239 0).enc.w.toNat < 240 ∧
    ¬ ((encAt .first 240 0).enc.st = .first ∧ (encAt .first 240 0).enc.w.toNat < 240) := by decide

theorem witness_EncPrefixEmitsTheLowNibble :
    (encAt .first 240 0).enc.st = .first ∧ 240 ≤ (encAt .first 240 0).enc.w.toNat ∧
    240 ≤ (encAt .first (2 ^ 64 - 1) 0).enc.w.toNat ∧
    ¬ ((encAt .first 239 0).enc.st = .first ∧ 240 ≤ (encAt .first 239 0).enc.w.toNat) := by decide

theorem witness_EncContEmitsTheLowSevenBits :
    (encAt .chain 128 8).enc.idx.toNat < 10 ∧ (encAt .chain 128 8).enc.st = .chain ∧
    128 ≤ (encAt .chain 128 8).enc.w.toNat ∧
    ¬ ((encAt .chain 127 8).enc.st = .chain ∧ 128 ≤ (encAt .chain 127 8).enc.w.toNat) := by decide

theorem witness_EncFinalEmitsTheRest :
    (encAt .chain 127 9).enc.idx.toNat < 10 ∧ (encAt .chain 127 9).enc.st = .chain ∧
    (encAt .chain 127 9).enc.w.toNat < 128 ∧
    ¬ ((encAt .chain 128 9).enc.st = .chain ∧ (encAt .chain 128 9).enc.w.toNat < 128) := by decide

theorem witness_EncoderGraphHasOneEnabledStep :
    (∃ t, exec (.encStart 7) (encAt .done 0 1) = .next t) ∧ (∃ t, exec .encSingle (encAt .first 239 0) = .next t) ∧
    (∃ t, exec .encPrefix (encAt .first 240 0) = .next t) ∧ (∃ t, exec .encCont (encAt .chain 128 8) = .next t) ∧
    (∃ t, exec .encFinal (encAt .chain 127 9) = .next t) ∧
    (encAt .first 239 0).enc.st = .first ∧ (encAt .first 239 0).enc.idx.toNat < 10 ∧
    (encAt .chain 128 9).enc.st = .chain ∧ (encAt .chain 128 9).enc.idx.toNat < 10 :=
  ⟨⟨_, rfl⟩, ⟨_, rfl⟩, ⟨_, rfl⟩, ⟨_, rfl⟩, ⟨_, rfl⟩, by decide⟩

theorem witness_EncoderStepsEmitTheirClass :
    (∃ t, exec .encSingle (encAt .first 0 0) = .next t) ∧ (∃ t, exec .encPrefix (encAt .first 255 0) = .next t) ∧
    (∃ t, exec .encCont (encAt .chain 255 1) = .next t) ∧ (∃ t, exec .encFinal (encAt .chain 0 9) = .next t) :=
  ⟨⟨_, rfl⟩, ⟨_, rfl⟩, ⟨_, rfl⟩, ⟨_, rfl⟩⟩

theorem witness_EncodeDeliversTheSequence :
    (encAt .idle 0 0).enc.st = .idle ∧ (encAt .done 2 4).enc.st = .done := by decide

theorem witness_EncodeIsTheRunOfItsSteps :
    (encAt .idle 0 0).enc.st = .idle ∧ (encAt .done 2 4).enc.st = .done ∧ (encSeq (5 : Word).toNat).length ≤ 1 := by
  decide

theorem witness_DecStartLatchesTheRange :
    2 ^ 64 - 1 < 2 ^ (restAt []).params.aw ∧ (restAt []).dec.st = .idle ∧ (decAt .done 0 0 0 0 []).dec.st = .done ∧
    (decAt .first 0 0 0 0 []).dec.st = .first ∧ (decAt .accum 0 0 1 240 []).dec.st = .accum := by decide

theorem witness_DecOob0RaisesOnAnEmptyRange :
    (decAt .first 5 4 0 0 []).dec.st = .first ∧ (decAt .first 5 4 0 0 []).dec.last < (decAt .first 5 4 0 0 []).dec.start ∧
    ¬ ((decAt .first 5 5 0 0 []).dec.st = .first ∧
      (decAt .first 5 5 0 0 []).dec.last < (decAt .first 5 5 0 0 []).dec.start) := by
  decide

theorem witness_DecSingleReturnsTheByte :
    (decAt .first 7 7 0 0 [(7, 0xEF)]).dec.st = .first ∧
    (decAt .first 7 7 0 0 [(7, 0xEF)]).dec.start ≤ (decAt .first 7 7 0 0 [(7, 0xEF)]).dec.last ∧
    (decAt .first 7 7 0 0 [(7, 0xEF)]).dec.last < 2 ^ 64 ∧ (memRead [(7, 0xEF)] 7).toNat < 240 ∧
    ¬ (memRead [(7, 0xF0)] 7).toNat < 240 := by decide

theorem witness_DecPrefixLoadsTheByteUnmasked :
    (decAt .first 7 7 0 0 [(7, 0xF0)]).dec.st = .first ∧
    (decAt .first 7 7 0 0 [(7, 0xF0)]).dec.start ≤ (decAt .first 7 7 0 0 [(7, 0xF0)]).dec.last ∧
    (decAt .first 7 7 0 0 [(7, 0xF0)]).dec.last < 2 ^ 64 ∧ 240 ≤ (memRead [(7, 0xF0)] 7).toNat ∧
    ¬ 240 ≤ (memRead [(7, 0xEF)] 7).toNat := by decide

theorem witness_DecOobkRaisesOnATruncatedSequence :
    (decAt .accum 0 0 1 240 []).dec.st = .accum ∧
    (decAt .accum 0 0 1 240 []).dec.last < (decAt .accum 0 0 1 240 []).dec.start + (decAt .accum 0 0 1 240 []).dec.off ∧
    ¬ ((decAt .accum 0 1 1 240 []).dec.st = .accum ∧
      (decAt .accum 0 1 1 240 []).dec.last < (decAt .accum 0 1 1 240 []).dec.start + (decAt .accum 0 1 1 240 []).dec.off) := by
  decide

/-- The last byte of the range is a continuation byte; the sum fits under `any`, and does not fit under `wrap`. -/
theorem witness_DecContAddsTheShiftedByte :
    (decAt .accum 0 1 1 240 [(1, 0x80)]).dec.st = .accum ∧
    (decAt .accum 0 1 1 240 [(1, 0x80)]).dec.start + (decAt .accum 0 1 1 240 [(1, 0x80)]).dec.off ≤
      (decAt .accum 0 1 1 240 [(1, 0x80)]).dec.last ∧
    (decAt .accum 0 1 1 240 [(1, 0x80)]).dec.last < 2 ^ 64 ∧ 128 ≤ (memRead [(1, 0x80)] (0 + 1)).toNat ∧
    (decAt .accum 0 10 10 5 [(10, 0xFF)]).params.decOvf = .wrap ∧
    ¬ 5 + (memRead [(10, 0xFF)] (0 + 10)).toNat * 2 ^ (4 + 7 * (10 - 1)) < 2 ^ 64 ∧
    (underAny (decAt .accum 0 1 1 240 [(1, 0x80)])).params.decOvf = .any ∧
    240 + (memRead [(1, 0x80)] (0 + 1)).toNat * 2 ^ (4 + 7 * (1 - 1)) < 2 ^ 64 ∧
    ¬ 128 ≤ (memRead [(1, 0x7F)] (0 + 1)).toNat := by decide

theorem witness_DecFinalAddsTheByteAndStops :
    (decAt .accum 0 1 1 240 [(1, 0x7F)]).dec.st = .accum ∧
    (decAt .accum 0 1 1 240 [(1, 0x7F)]).dec.start + (decAt .accum 0 1 1 240 [(1, 0x7F)]).dec.off ≤
      (decAt .accum 0 1 1 240 [(1, 0x7F)]).dec.last ∧
    (decAt .accum 0 1 1 240 [(1, 0x7F)]).dec.last < 2 ^ 64 ∧ (memRead [(1, 0x7F)] (0 + 1)).toNat < 128 ∧
    (decAt .accum 0 10 10 5 [(10, 0x01)]).params.decOvf = .wrap ∧
    ¬ 5 + (memRead [(10, 0x01)] (0 + 10)).toNat * 2 ^ (4 + 7 * (10 - 1)) < 2 ^ 64 ∧
    (underAny (decAt .accum 0 1 1 240 [(1, 0x7F)])).params.decOvf = .any ∧
    240 + (memRead [(1, 0x7F)] (0 + 1)).toNat * 2 ^ (4 + 7 * (1 - 1)) < 2 ^ 64 ∧
    ¬ (memRead [(1, 0x80)] (0 + 1)).toNat < 128 := by decide

theorem witness_DecoderGraphHasOneEnabledStep :
    (∃ t, exec (.decStart 0 0) (restAt []) = .next t) ∧ (∃ t, exec .decOob0 (decAt .first 5 4 0 0 []) = .next t) ∧
    (∃ t, exec .decSingle (decAt .first 7 7 0 0 [(7, 0xEF)]) = .next t) ∧
    (∃ t, exec .decPrefix (decAt .first 7 7 0 0 [(7, 0xF0)]) = .next t) ∧
    (∃ t, exec .decOobk (decAt .accum 0 0 1 240 []) = .next t) ∧
    (∃ t, exec .decCont (decAt .accum 0 1 1 240 [(1, 0x80)]) = .next t) ∧
    (∃ t, exec .decFinal (decAt .accum 0 1 1 240 [(1, 0x7F)]) = .next t) ∧
    (decAt .first 5 4 0 0 []).dec.st = .first ∧ (decAt .accum 0 0 1 240 []).dec.st = .accum ∧
    (decAt .first 5 4 0 0 []).dec.last < 2 ^ 64 ∧ (decAt .accum 0 0 1 240 []).dec.last < 2 ^ 64 :=
  ⟨⟨_, rfl⟩, ⟨_, rfl⟩, ⟨_, rfl⟩, ⟨_, rfl⟩, ⟨_, rfl⟩, ⟨_, rfl⟩, ⟨_, rfl⟩, by decide⟩

theorem witness_SingleRowsReturnTheByte :
    (decAt .first 7 7 0 0 []).dec.st = .first ∧
    (decAt .first 7 7 0 0 []).dec.start ≤ (decAt .first 7 7 0 0 []).dec.last ∧
    (0x7F : Byte).toNat < 128 ∧ 128 ≤ (0x80 : Byte).toNat ∧ (0xBF : Byte).toNat < 192 ∧
    192 ≤ (0xC0 : Byte).toNat ∧ (0xDF : Byte).toNat < 224 ∧ 224 ≤ (0xE0 : Byte).toNat ∧
    (0xEF : Byte).toNat < 240 := by decide

theorem witness_PrefixClassStartsTheSum :
    (decAt .first 7 7 0 0 []).dec.st = .first ∧
    (decAt .first 7 7 0 0 []).dec.start ≤ (decAt .first 7 7 0 0 []).dec.last := by decide

theorem witness_ContClassAddsItsByte :
    (decAt .accum 0 10 10 5 []).dec.st = .accum ∧
    (decAt .accum 0 10 10 5 []).dec.start + (decAt .accum 0 10 10 5 []).dec.off ≤ (decAt .accum 0 10 10 5 []).dec.last ∧
    (decAt .accum 0 10 10 5 []).params.decOvf = .wrap ∧
    (underAny (decAt .accum 0 1 1 240 [])).dec.acc.toNat + (128 + (127 : BitVec 7).toNat) * 2 ^ (4 + 7 * (1 - 1)) <
      2 ^ 64 := by decide

theorem witness_FinalClassAddsItsByteAndStops :
    (decAt .accum 0 10 10 5 []).dec.st = .accum ∧
    (decAt .accum 0 10 10 5 []).dec.start + (decAt .accum 0 10 10 5 []).dec.off ≤ (decAt .accum 0 10 10 5 []).dec.last ∧
    (decAt .accum 0 10 10 5 []).params.decOvf = .wrap ∧
    (underAny (decAt .accum 0 1 1 240 [])).dec.acc.toNat + (127 : BitVec 7).toNat * 2 ^ (4 + 7 * (1 - 1)) < 2 ^ 64 := by
  decide

theorem witness_ByteClassesDoWhatTheirDecoderStepDoes :
    decFetch (decAt .first 7 7 0 0 [(7, 0xBF)]) = .ok (some (.byteSingleB 0xBF)) ∧
    decoderStep (.byteSingleB 0xBF) = some .decSingle ∧
    decFetch (decAt .first 7 7 0 0 [(7, 0xFF)]) = .ok (some (.bytePrefix 0xF)) ∧
    decoderStep (.bytePrefix 0xF) = some .decPrefix ∧
    decFetch (decAt .accum 0 1 1 240 [(1, 0x80)]) = .ok (some (.byteCont 0)) ∧
    decoderStep (.byteCont 0) = some .decCont ∧
    decFetch (decAt .accum 0 1 1 240 [(1, 0x7F)]) = .ok (some (.byteFinal 0x7F)) ∧
    decoderStep (.byteFinal 0x7F) = some .decFinal := ⟨rfl, rfl, rfl, rfl, rfl, rfl, rfl, rfl⟩

/-- A whole sequence that ends with its range, under either parameter, and a range that begins with none. -/
theorem witness_DecodeReturnsTheSequenceOfItsRange :
    (restAt million).dec.st = .idle ∧ (0 : Nat) < 2 ^ (restAt million).params.aw ∧
    (3 : Nat) < 2 ^ (restAt million).params.aw ∧ 0 + 4 ≤ 3 + 1 ∧ terminated (memSlice million 0 4) = true ∧
    (restAt million).params.decOvf = .wrap ∧ (underAny (restAt million)).params.decOvf = .any ∧
    natOf (memSlice million 0 4) < 2 ^ 64 ∧
    (∀ l : Nat, l ≤ 1 → terminated (memSlice [(0, 0xF0)] 0 l) = false) := by decide

theorem witness_DecodeIsTheRunOfItsSteps :
    (restAt million).dec.st = .idle ∧ (0 : Nat) < 2 ^ (restAt million).params.aw ∧
    (3 : Nat) < 2 ^ (restAt million).params.aw ∧ (3 + 1 - 0) + 1 ≤ 5 := by decide

/-- Cut by one byte, and an empty range. -/
theorem witness_TruncatedSequenceIsOutOfBounds :
    (restAt million).dec.st = .idle ∧ (2 : Nat) < 2 ^ (restAt million).params.aw ∧
    terminated (memSlice million 0 4) = true ∧ 2 + 1 < 0 + 4 ∧ terminated (memSlice million 3 1) = true ∧
    2 + 1 < 3 + 1 ∧
    (2 : Nat) < 3 := by decide

theorem witness_TrailingBytesDoNotMatter :
    (restAt million).dec.st = .idle ∧ (decAt .done 9 9 0 7 (million ++ [(4, 0xFF)])).dec.st = .done ∧
    (decAt .done 9 9 0 7 (million ++ [(4, 0xFF)])).params = (restAt million).params ∧
    (decAt .done 9 9 0 7 (million ++ [(4, 0xFF)])).draws = (restAt million).draws ∧
    (3 : Nat) < 2 ^ (restAt million).params.aw ∧ (2 : Nat) ^ 64 - 1 < 2 ^ (restAt million).params.aw ∧
    terminated (memSlice million 0 4) = true ∧ memSlice (million ++ [(4, 0xFF)]) 0 4 = memSlice million 0 4 ∧
    0 + 4 ≤ 3 + 1 ∧ 0 + 4 ≤ 2 ^ 64 - 1 + 1 := by decide

theorem witness_DecodeReadsOnlyTheBytesItReports :
    (restAt million).dec.st = .idle ∧ (0 : Nat) < 2 ^ (restAt million).params.aw ∧
    (2 : Nat) ^ 64 - 1 < 2 ^ (restAt million).params.aw ∧ decodeReads million 0 (2 ^ 64 - 1) = [0, 1, 2, 3] ∧
    (∀ x ∈ [0, 1, 2, 3], memRead (million ++ [(4, 0xFF)]) x = memRead million x) :=
  ⟨rfl, by decide, by decide, rfl, by decide⟩

theorem witness_DecoderStepReadsOneByte :
    (decAt .first 0 3 0 0 [(0, 0x05)]).dec.off = 0 ∧
    memRead [(0, 0x05), (1, 0xFF)] (0 + 0) = memRead [(0, 0x05)] (0 + 0) ∧
    (∃ t, exec .decSingle (decAt .first 0 3 0 0 [(0, 0x05)]) = .next t) ∧
    (∃ t, exec .decPrefix (decAt .first 0 3 0 0 million) = .next t) ∧
    (∃ t, exec .decCont (decAt .accum 0 3 1 240 million) = .next t) ∧
    (∃ t, exec .decFinal (decAt .accum 0 3 3 475712 million) = .next t) ∧
    (∃ t, exec (.decStart 0 3) (restAt million) = .next t) ∧
    (∃ t, exec .decOob0 (decAt .first 5 4 0 0 []) = .next t) ∧
    (∃ t, exec .decOobk (decAt .accum 0 0 1 240 []) = .next t) :=
  ⟨rfl, by decide, ⟨_, rfl⟩, ⟨_, rfl⟩, ⟨_, rfl⟩, ⟨_, rfl⟩, ⟨_, rfl⟩, ⟨_, rfl⟩, ⟨_, rfl⟩⟩

theorem witness_DecodeOfAnEncodingReturnsTheValue :
    (restAt million).dec.st = .idle ∧ (3 : Nat) < 2 ^ (restAt million).params.aw ∧
    0 + (encSeq (1000000 : Word).toNat).length ≤ 3 + 1 ∧
    memSlice million 0 (encSeq (1000000 : Word).toNat).length = encSeq (1000000 : Word).toNat := by decide

theorem witness_EncodeCopyDecodeReturnsTheValue :
    (restAt million).enc.st = .idle ∧ (restAt million).dec.st = .idle ∧
    (restAt million).mem.wf (restAt million).params = true ∧ (2 : Nat) ^ 64 - 1 < 2 ^ (restAt million).params.aw ∧
    2 ^ 64 - 10 + (encSeq (18446744073709551615 : Word).toNat).length ≤ 2 ^ 64 - 1 + 1 := by decide

theorem witness_StreamOfEncodingsDecodesInTurn :
    (restAt [(0, 0xF8), (1, 0x2F), (2, 0x05)]).dec.st = .idle ∧
    (2 : Nat) < 2 ^ (restAt []).params.aw ∧ 0 ≤ 2 + 1 ∧
    memSlice [(0, 0xF8), (1, 0x2F), (2, 0x05)] 0 (2 + 1 - 0) =
      [(1000 : Word), 5].flatMap (fun v => encSeq v.toNat) ∧
    [(1000 : Word), 5] = [1000] ++ 5 :: [] ∧ (2 : Nat) + 1 < 2 ^ (restAt []).params.aw := by decide

theorem witness_HostWritePlacesTheBytes :
    Memory.wf Config.resetParams million = true ∧ 2 ^ 64 - 2 + [(0x00 : Byte), 0xAA].length ≤ 2 ^ 64 ∧
    2 ^ 64 - 3 < 2 ^ 64 - 2 := by decide

/-- `SET` at rest; during a decode of 0 to 3 outside the range at its end, over the last byte of the range, and over
an empty range. -/
theorem witness_HostWritePlacesTheBytes_set :
    ((restAt []).withScript [.set 3 [0xFF]]).script = .set 3 [0xFF] :: [] ∧ (restAt []).dec.st = .idle ∧
    3 + [(0xFF : Byte)].length ≤ 2 ^ (restAt []).params.aw ∧
    (∀ x, 4 ≤ x → x < 4 + [(0xFF : Byte)].length →
      ¬ ((decAt .accum 0 3 1 240 million).dec.start ≤ x ∧ x ≤ (decAt .accum 0 3 1 240 million).dec.last)) ∧
    (∀ x, 1 ≤ x → x < 1 + 6 → ¬ ((decAt .first 5 2 0 0 []).dec.start ≤ x ∧ x ≤ (decAt .first 5 2 0 0 []).dec.last)) ∧
    (decAt .accum 0 3 1 240 million).dec.st = .accum ∧
    (∃ x, 3 ≤ x ∧ x < 3 + [(0xFF : Byte)].length ∧ (decAt .accum 0 3 1 240 million).dec.start ≤ x ∧
      x ≤ (decAt .accum 0 3 1 240 million).dec.last) :=
  ⟨rfl, rfl, by decide, fun x h1 h2 h3 => by simp [decAt] at h2 h3; omega,
    fun x h1 h2 h3 => by simp [decAt] at h3; omega, rfl, ⟨3, by decide⟩⟩

theorem witness_NaturalValueIsABijection :
    terminated [0xF0, 0x00] = true ∧ natOf [0xF0, 0x00] = natOf [0xF0, 0x00] ∧ (2 : Nat) ^ 64 - 1 < 2 ^ 64 ∧
    natOf [0xFF, 0xF0, 0xFE, 0xFE, 0xFE, 0xFE, 0xFE, 0xFE, 0xFE, 0x0E] < 2 ^ 64 := by decide

theorem witness_LengthClassesAreExact :
    (2 : Nat) ^ 64 - 1 < 2 ^ 64 ∧ (encSeq (2 ^ 64 - 1)).length = 10 := by decide

theorem witness_LengthIsMonotone :
    239 ≤ 240 ∧ (240 : Nat) < 2 ^ 64 ∧ (2 : Nat) ^ 64 - 2 + 1 < 2 ^ 64 ∧
    (encSeq (239 + 1)).length ≠ (encSeq 239).length := by decide

theorem witness_TerminatedSequencesArePrefixFree :
    terminated [0xF0, 0x80, 0x00] = true ∧ ([0xF0, 0x80, 0x00] : List Byte) <+: [0xF0, 0x80, 0x00] := by decide

theorem witness_PayloadFormOfTheValue :
    terminated [0xF0, 0x00] = true ∧ 2 ≤ ([0xF0, 0x00] : List Byte).length ∧
    terminated [0xF0, 0x95, 0xE7, 0x02] = true := by decide

theorem witness_ClassRowsPartitionTheBytes :
    inRow 0x80 0x00 0x7F = true ∧ inRow 0xC0 0x80 0xBF = true ∧ inRow 0xE0 0xC0 0xDF = true ∧
    inRow 0xF0 0xE0 0xEF = true ∧ inRow 0xF0 0xF0 0xF0 = true ∧ inRow 0x80 0x80 0x80 = true := by decide

theorem witness_ByteClassesDecodeAndEncode :
    wellFormed Config.resetParams (.byteSingleD 0xEF) = true ∧ position (.byteSingleD 0xEF) = some .first ∧
    wellFormed Config.resetParams (.byteFinal 0x7F) = true ∧ position (.byteFinal 0x7F) = some .later := by decide

theorem witness_SequencesDecodeAndEncode :
    decodeSeq [0x05, 0x06] = .ok ([.byteSingleA 0x05], [0x06]) ∧ terminated [0xF0, 0x80, 0x00] = true ∧
    decodeSeq [0xF0, 0x80] = .error .unterminated ∧ terminated [0x05] = true :=
  ⟨rfl, by decide, rfl, by decide⟩

theorem witness_InstructionsWriteOnlyTheirUnit :
    (∃ t, exec (.encode 7) (encAt .idle 0 0) = .next t) ∧ encoderRows (.encode 7) ∧
    (∃ t, exec (.byteFinal 0) (decAt .accum 0 1 1 240 []) = .next t) ∧ ¬ encoderRows (.byteFinal 0) :=
  ⟨⟨_, rfl⟩, .inr ⟨7, .inl rfl⟩, ⟨_, rfl⟩, by rintro (h | ⟨v, h | h⟩) <;> simp at h⟩

/-- `DEC` in `FIRST` over a range and `ENC` in `FIRST`, both busy. -/
def bothBusy : State := (decAt .first 0 3 0 0 million).withEnc (encAt .first 240 0).enc

theorem witness_UnitsDoNotInteract :
    (∃ t, agentMove .enc bothBusy = .next t) ∧ (∃ t, agentMove .dec bothBusy = .next t) := ⟨⟨_, rfl⟩, ⟨_, rfl⟩⟩

theorem witness_ResponsesStandUntilTheNextRequest :
    (∃ t, exec (.decode 0 0) (encAt .done 0 1) = .next t) ∧ (encAt .done 0 1).enc.st = .done ∧
    (∃ t, exec (.encode 0) (decAt .done 0 0 0 0 []) = .next t) ∧ (decAt .done 0 0 0 0 []).dec.st = .done :=
  ⟨⟨_, rfl⟩, rfl, ⟨_, rfl⟩, rfl⟩

theorem witness_ResponsesForgetEarlierOperations :
    (encAt .idle 0 0).enc.st = .idle ∧ (encAt .done 5 3).enc.st = .done ∧ (restAt million).dec.st = .idle ∧
    (decAt .done 7 7 7 7 (million ++ [(4, 0xFF)])).dec.st = .done ∧
    (decAt .done 7 7 7 7 (million ++ [(4, 0xFF)])).params = (restAt million).params ∧
    (restAt million).params.decOvf = .wrap ∧ (0 : Nat) < 2 ^ (restAt million).params.aw ∧
    (3 : Nat) < 2 ^ (restAt million).params.aw ∧
    (∀ x, x ≤ 3 → memRead (million ++ [(4, 0xFF)]) x = memRead million x) ∧
    (underAny (restAt million)).params.decOvf = .any ∧
    (underAny (decAt .done 7 7 7 7 million)).draws = (underAny (restAt million)).draws := by decide

theorem witness_OnlyBoundsExhaustionRaises :
    (decAt .first 5 4 0 0 []).dec.status = .ok ∧
    (∃ t, exec .decOob0 (decAt .first 5 4 0 0 []) = .next t ∧ t.dec.status = .oob) ∧
    (decAt .accum 0 0 1 240 []).dec.status = .ok ∧
    (∃ t, exec .decOobk (decAt .accum 0 0 1 240 []) = .next t ∧ t.dec.status = .oob) ∧
    (∃ t, exec (.decode 0 0) (restAt [(0, 0xF0)]) = .next t ∧ t.dec.status = .oob) :=
  ⟨rfl, ⟨_, rfl, rfl⟩, rfl, ⟨_, rfl, rfl⟩, ⟨_, rfl, rfl⟩⟩

/-- `DEC` after the failure of vector OV3. -/
def failed : State := raiseOutOfBounds (decAt .accum 0 0 1 240 [])

theorem witness_FailureEndsWithTheNextRequest :
    failed.dec.st = .done ∧ failed.dec.status = .oob ∧
    (∃ t, exec (.decStart 4 9) failed = .next t ∧ t.dec.status = .ok) ∧
    (∃ t, exec (.decode 0 0) failed = .next t ∧ t.dec.status = .ok) :=
  ⟨rfl, rfl, ⟨_, rfl, rfl⟩, ⟨_, rfl, rfl⟩⟩

theorem witness_BusyUnitTakesNoOperation :
    (encAt .first 0 0).enc.st = .first ∧ (encAt .chain 0 1).enc.st = .chain ∧
    (decAt .first 0 0 0 0 []).dec.st = .first ∧ (decAt .accum 0 0 1 240 []).dec.st = .accum := by decide

theorem witness_StepCountsOfTheOperations :
    (encAt .done 2 4).enc.st = .done ∧ (decAt .done 0 0 1 240 million).dec.st = .done ∧
    (0 : Nat) < 2 ^ (decAt .done 0 0 1 240 million).params.aw ∧
    (2 : Nat) < 2 ^ (decAt .done 0 0 1 240 million).params.aw := by decide

theorem witness_BusyUnitsReachDone :
    Inv (encAt .first (2 ^ 64 - 1) 0) = true ∧ (encAt .first (2 ^ 64 - 1) 0).enc.st = .first ∧
    Inv (encAt .chain 15 9) = true ∧ (encAt .chain 15 9).enc.st = .chain ∧
    Inv (decAt .first 5 4 0 0 []) = true ∧ (decAt .first 5 4 0 0 []).dec.st = .first ∧
    Inv (decAt .accum 0 0 1 240 []) = true ∧ (decAt .accum 0 0 1 240 []).dec.st = .accum := by decide

theorem witness_EveryStepKeepsTheInvariant :
    Inv bothBusy = true ∧ (∃ t, step bothBusy = .next t) ∧ (∃ t, exec .encPrefix bothBusy = .next t) :=
  ⟨by decide, ⟨_, rfl⟩, ⟨_, rfl⟩⟩

theorem witness_NoStepFaults : Inv (encAt .chain 15 9) = true ∧ Inv (decAt .first (2 ^ 64 - 1) (2 ^ 64 - 1) 0 0 []) = true := by
  decide

theorem witness_ViewsAreValidInTheirWindow :
    Inv (encAt .done 14 10) = true ∧ encLen? (encAt .done 14 10).enc = some 10 ∧
    Inv (decAt .done 0 3 3 1000000 million) = true ∧ decConsumed? (decAt .done 0 3 3 1000000 million).dec = some 4 := by
  decide

theorem witness_HostResetAbandonsOperations :
    (bothBusy.withScript [.reset]).script = .reset :: [] := rfl

theorem witness_HostRequestsWaitForTheUnit :
    ((restAt []).withScript [.enc 5]).script = .enc 5 :: [] ∧ ((restAt []).withScript [.enc 5]).enc.st = .idle ∧
    (bothBusy.withScript [.enc 5]).enc.st = .first ∧ (bothBusy.withScript [.dec 0 1]).script = .dec 0 1 :: [] ∧
    (bothBusy.withScript [.dec 0 1]).dec.st = .first ∧ ((restAt []).withScript [.dec 0 1]).dec.st = .idle := by decide

theorem witness_HostCopyTakesTheResponse :
    ((encAt .done 0 1).withScript [.cpy 7]).script = .cpy 7 :: [] ∧
    ((encAt .done 0 1).withScript [.cpy 7]).enc.st = .done ∧ ((encAt .done 0 1).withScript [.cpy 7]).dec.st = .idle ∧
    [(0x00 : Byte)] = (encAt .done 0 1).enc.obuf.toList.take (encAt .done 0 1).enc.idx.toNat ∧
    7 + [(0x00 : Byte)].length ≤ 2 ^ (encAt .done 0 1).params.aw ∧
    ((encAt .first 0 0).withScript [.cpy 7]).enc.st = .first ∧
    ((encAt .idle 0 0).withScript [.cpy 7]).enc.st = .idle := by decide

/-- `ENC` in `DONE` with one byte, `DEC` busy over 0 to 3. -/
def copyDuringDecode : State := (decAt .accum 0 3 1 240 million).withEnc (encAt .done 0 1).enc

/-- A copy during a decode, just past its range and over its last byte. -/
theorem witness_HostCopyTakesTheResponse_busy :
    copyDuringDecode.enc.st = .done ∧ copyDuringDecode.dec.st = .accum ∧
    [(0x00 : Byte)] = copyDuringDecode.enc.obuf.toList.take copyDuringDecode.enc.idx.toNat ∧
    (∀ x, 4 ≤ x → x < 4 + [(0x00 : Byte)].length → ¬ (copyDuringDecode.dec.start ≤ x ∧ x ≤ copyDuringDecode.dec.last)) ∧
    (∃ x, 3 ≤ x ∧ x < 3 + [(0x00 : Byte)].length ∧ copyDuringDecode.dec.start ≤ x ∧ x ≤ copyDuringDecode.dec.last) :=
  ⟨rfl, rfl, by decide, fun x h1 h2 h3 => by simp [copyDuringDecode, decAt] at h2 h3; omega, ⟨3, by decide⟩⟩

theorem witness_StepRunsTheDecodedInstruction :
    nextAgent (decAt .first 7 7 0 0 [(7, 0xEF)]) = .dec ∧ (decAt .first 7 7 0 0 [(7, 0xEF)]).dec.last < 2 ^ 64 ∧
    (decode .first (memRead [(7, 0xEF)] 7 :: [])).toOption = some (.byteSingleD 0xEF, []) ∧
    nextAgent (decAt .accum 0 1 1 240 [(1, 0x80)]) = .dec ∧
    (decode .later (memRead [(1, 0x80)] (0 + 1) :: [])).toOption = some (.byteCont 0, []) ∧
    nextAgent (decAt .first 5 4 0 0 []) = .dec ∧ nextAgent (decAt .accum 0 0 1 240 []) = .dec ∧
    nextAgent (encAt .first 240 0) = .enc ∧ encEnabled (encAt .first 240 0).enc = some .encPrefix := by decide

end Sys2Proof.Tests
end

section
/-! SUPPORT. What `DEC` fetches in each of its busy states, what a move of a unit runs, and what a step is for
each agent (spec/00_scope.md R12, spec/40_encoder.md R92, spec/41_decoder.md R112, spec/60_exceptions.md R155). -/

namespace Sys2Proof.Machine

/-! Decoding one byte. -/

/-- A decode of one byte never fails, and the instruction is the class row of that byte
(spec/30_encoding.md R78). -/
@[simp] theorem decode_cons_eq_ok_iff (pos : Position) (b : Byte) (rest after : List Byte) (i : Instr) :
    decode pos (b :: rest) = .ok (i, after) ↔ decodeByte pos b = i ∧ rest = after := by
  simp [decode]

/-! What `DEC` fetches. -/

theorem memByte?_of_lt {s : State} {a : Nat} (ha : a < 2 ^ s.params.aw) :
    memByte? s a = some (memRead s.mem a) := by
  simp [memByte?, addressFits, ha]

/-- Inside `MEM` the fetch classifies the byte of `MEM` at the address. -/
theorem decFetchAt_of_lt {s : State} {a : Nat} (ha : a < 2 ^ s.params.aw) (pos : Position) :
    decFetchAt s pos a = .ok (some (decodeByte pos (memRead s.mem a))) := by
  simp [decFetchAt, memByte?_of_lt ha]

theorem decFetch_first_of_inb {s : State} (hst : s.dec.st = .first) (hin : s.dec.start ≤ s.dec.last) :
    decFetch s = decFetchAt s .first s.dec.start := by
  simp [decFetch, hst, hin]

theorem decFetch_first_of_oob {s : State} (hst : s.dec.st = .first) (hout : s.dec.last < s.dec.start) :
    decFetch s = .ok (some .decOob0) := by
  simp [decFetch, hst, Nat.not_le.mpr hout]

theorem decFetch_accum_of_inb {s : State} (hst : s.dec.st = .accum)
    (hin : s.dec.start + s.dec.off ≤ s.dec.last) :
    decFetch s = decFetchAt s .later (s.dec.start + s.dec.off) := by
  simp [decFetch, hst, (decInb_iff s.dec).mpr hin]

theorem decFetch_accum_of_oob {s : State} (hst : s.dec.st = .accum)
    (hout : s.dec.last < s.dec.start + s.dec.off) :
    decFetch s = .ok (some .decOobk) := by
  simp [decFetch, hst, decInb_iff, Nat.not_le.mpr hout]

/-! What a step runs. The schedule is no input of a fetch or of the choice of an enabled step, so both are
stated on the state before the agent is taken off. -/

@[simp] theorem decFetch_withSched (s : State) (l : List Agent) : decFetch (s.withSched l) = decFetch s := rfl

/-- A step of `DEC` is `exec` of what it fetches. -/
theorem step_dec_of_fetch {s : State} {i : Instr} (hdec : nextAgent s = .dec)
    (hfetch : decFetch s = .ok (some i)) : step s = exec i (s.withSched s.sched.tail) := by
  simp [step, hdec, agentMove, decMove, hfetch]

/-- A step of `ENC` is `exec` of the step its registers enable. -/
theorem step_enc_of_enabled {s : State} {i : Instr} (henc : nextAgent s = .enc)
    (hen : encEnabled s.enc = some i) : step s = exec i (s.withSched s.sched.tail) := by
  simp [step, henc, agentMove, encMove, hen]

/-- In bounds, before the first byte, the step runs the class row of the byte at `START`. -/
theorem step_dec_first_of_inb {s : State} (hdec : nextAgent s = .dec) (hst : s.dec.st = .first)
    (hin : s.dec.start ≤ s.dec.last) (hlast : s.dec.last < 2 ^ s.params.aw) :
    step s = exec (decodeByte .first (memRead s.mem s.dec.start)) (s.withSched s.sched.tail) :=
  step_dec_of_fetch hdec <|
    (decFetch_first_of_inb hst hin).trans (decFetchAt_of_lt (hin.trans_lt hlast) .first)

/-- In bounds, while bytes are accumulated, the step runs the class row of the byte at `START + OFF`. -/
theorem step_dec_accum_of_inb {s : State} (hdec : nextAgent s = .dec) (hst : s.dec.st = .accum)
    (hin : s.dec.start + s.dec.off ≤ s.dec.last) (hlast : s.dec.last < 2 ^ s.params.aw) :
    step s =
      exec (decodeByte .later (memRead s.mem (s.dec.start + s.dec.off))) (s.withSched s.sched.tail) :=
  step_dec_of_fetch hdec <|
    (decFetch_accum_of_inb hst hin).trans (decFetchAt_of_lt (hin.trans_lt hlast) .later)

/-- Settles O60: each clause is the fetch, or the enabled step, of the agent in that state, and `decode` of the
byte names the class row fetched. -/
theorem stepRunsTheDecodedInstruction : Obligations.StepRunsTheDecodedInstruction := by
  intro s i rest
  refine ⟨?firstInBounds, ?laterInBounds, ?emptyRange, ?rangeEnds, ?encoder⟩
  case firstInBounds =>
    intro hdec hst hin hlast hdecode
    obtain ⟨rfl, -⟩ := (decode_cons_eq_ok_iff _ _ _ _ _).mp hdecode
    exact step_dec_first_of_inb hdec hst hin hlast
  case laterInBounds =>
    intro hdec hst hin hlast hdecode
    obtain ⟨rfl, -⟩ := (decode_cons_eq_ok_iff _ _ _ _ _).mp hdecode
    exact step_dec_accum_of_inb hdec hst hin hlast
  case emptyRange =>
    intro hdec hst hout
    exact step_dec_of_fetch hdec (decFetch_first_of_oob hst hout)
  case rangeEnds =>
    intro hdec hst hout
    exact step_dec_of_fetch hdec (decFetch_accum_of_oob hst hout)
  case encoder =>
    intro henc hen
    exact step_enc_of_enabled henc hen

end Sys2Proof.Machine
end

section
/-! SUPPORT. What the rows of each unit write and when they may write it, with the view windows and the invariant
read at `DONE`; the statements on the state of spec/10_state.md that follow. -/

namespace Sys2Proof.Machine

/-! The invariant by its three parts, and what it says in `DONE`. -/

theorem inv_iff (s : State) :
    Inv s = true ↔ s.mem.wf s.params = true ∧ encInv s.enc = true ∧ decInv s.params s.dec = true := by
  simp [Inv, and_assoc]

theorem idx_bounds_of_done {e : Enc} (hinv : encInv e = true) (hst : e.st = .done) :
    1 ≤ e.idx.toNat ∧ e.idx.toNat ≤ 10 := by
  simpa [encInv, hst] using hinv

/-- A success ends inside the range (spec/10_state.md R33). -/
theorem inb_of_done_ok {p : Params} {d : Dec} (hinv : decInv p d = true) (hst : d.st = .done)
    (hok : d.status = .ok) : d.start + d.off ≤ d.last := by
  simp only [decInv, hst, hok, Bool.and_eq_true, decide_eq_true_eq] at hinv
  simpa using hinv.2

/-- Settles O53: `MEM` is empty, and both units are idle with their counters at 0. -/
theorem resetMeetsTheInvariant : Obligations.ResetMeetsTheInvariant :=
  (inv_iff State.reset).mpr ⟨wf_reset, rfl, by decide⟩

/-! The windows of the views (spec/10_state.md R42). -/

theorem encLen?_eq_some_iff (e : Enc) (n : BitVec 4) : encLen? e = some n ↔ e.st = .done ∧ e.idx = n := by
  simp [encLen?]

theorem encLen?_isSome_iff (e : Enc) : (encLen? e).isSome = true ↔ e.st = .done := by
  simp [Option.isSome_iff_exists, encLen?_eq_some_iff]

/-- The index must also be one of `OBUF`, which `idx ≤ 10` grants in `DONE`. -/
theorem encByte?_isSome_iff (e : Enc) (i : Nat) :
    (encByte? e i).isSome = true ↔ (e.st = .done ∧ i < e.idx.toNat) ∧ i < 10 := by
  by_cases hwin : e.st = .done ∧ i < e.idx.toNat <;> simp [encByte?, hwin]

theorem decStatus?_isSome_iff (d : Dec) : (decStatus? d).isSome = true ↔ d.st = .done := by
  simp [decStatus?]

theorem decValue?_isSome_iff (d : Dec) : (decValue? d).isSome = true ↔ d.st = .done ∧ d.status = .ok := by
  simp [decValue?]

theorem decConsumed?_eq_some_iff (d : Dec) (c : Nat) :
    decConsumed? d = some c ↔ (d.st = .done ∧ d.status = .ok) ∧ d.off + 1 = c := by
  simp [decConsumed?]

theorem decConsumed?_isSome_iff (d : Dec) :
    (decConsumed? d).isSome = true ↔ d.st = .done ∧ d.status = .ok := by
  simp [Option.isSome_iff_exists, decConsumed?_eq_some_iff]

/-- Settles O55: the windows are those of the views' definitions; the bounds are the invariant's in `DONE`. -/
theorem viewsAreValidInTheirWindow : Obligations.ViewsAreValidInTheirWindow := by
  intro s hinv
  obtain ⟨-, henc, hdec⟩ := (inv_iff s).mp hinv
  refine ⟨encLen?_isSome_iff _, ?lenBounds, ?byteWindow, decStatus?_isSome_iff _, decValue?_isSome_iff _,
    decConsumed?_isSome_iff _, ?consumedBounds⟩
  case lenBounds =>
    intro n hn
    obtain ⟨hst, rfl⟩ := (encLen?_eq_some_iff _ _).mp hn
    exact idx_bounds_of_done henc hst
  case byteWindow =>
    intro i
    rw [encByte?_isSome_iff, and_iff_left_iff_imp]
    rintro ⟨hst, hi⟩
    exact hi.trans_le (idx_bounds_of_done henc hst).2
  case consumedBounds =>
    intro c hc
    obtain ⟨⟨hst, hok⟩, rfl⟩ := (decConsumed?_eq_some_iff _ _).mp hc
    have hin := inb_of_done_ok hdec hst hok
    omega

/-- Settles O56: reset leaves both units in `IDLE`, outside the window of every view. -/
theorem resetLeavesTheControlState : Obligations.ResetLeavesTheControlState := by
  have henc : State.reset.enc.st ≠ .done := by decide
  have hdec : State.reset.dec.st ≠ .done := by decide
  exact ⟨rfl, rfl, rfl, rfl, rfl, by simp [encLen?, henc], by simp [decValue?, hdec],
    by simp [decConsumed?, hdec]⟩

/-! What a row writes, and the state of the unit it needs. -/

/-- `t` is `s` but for the registers of `DEC` and the count of free values. -/
def DecWrites (s t : State) : Prop := ∃ (d : Dec) (n : Nat), t = (s.withDec d).withDraws n

theorem DecWrites.enc_eq {s t : State} (h : DecWrites s t) : t.enc = s.enc := by
  obtain ⟨d, n, rfl⟩ := h
  rfl

theorem decWrites_withDec (s : State) (d : Dec) : DecWrites s (s.withDec d) := ⟨d, s.draws, rfl⟩

theorem takeSingle_writes {b : Byte} {s t : State} (h : takeSingle b s = .next t) :
    DecWrites s t ∧ s.dec.st = .first := by
  obtain ⟨hst, -, -, rfl⟩ := takeSingle_next h
  exact ⟨decWrites_withDec _ _, hst⟩

theorem takePrefix_writes {b : Byte} {s t : State} (h : takePrefix b s = .next t) :
    DecWrites s t ∧ s.dec.st = .first := by
  obtain ⟨hst, -, -, rfl⟩ := takePrefix_next h
  exact ⟨decWrites_withDec _ _, hst⟩

theorem takeCont_writes {b : Byte} {s t : State} (h : takeCont b s = .next t) :
    DecWrites s t ∧ s.dec.st = .accum := by
  obtain ⟨hst, -, -, rfl⟩ := takeCont_next h
  exact ⟨⟨_, _, rfl⟩, hst⟩

theorem takeFinal_writes {b : Byte} {s t : State} (h : takeFinal b s = .next t) :
    DecWrites s t ∧ s.dec.st = .accum := by
  obtain ⟨hst, -, -, rfl⟩ := takeFinal_next h
  exact ⟨⟨_, _, rfl⟩, hst⟩

/-- The rows of the encoder write `ENC` alone, and all but the two requests run only while it is busy. -/
theorem exec_encoderRows_next {i : Instr} {s t : State} (hi : encoderRows i) (h : exec i s = .next t) :
    (∃ x, t = s.withEnc x) ∧
      ((∃ v, i = .encode v ∨ i = .encStart v) ∨ s.enc.st = .first ∨ s.enc.st = .chain) := by
  rcases hi with hstep | ⟨v, rfl | rfl⟩
  · simp only [List.mem_cons, List.not_mem_nil, or_false] at hstep
    rcases hstep with rfl | rfl | rfl | rfl
    · obtain ⟨hst, -, ht⟩ := execEncSingle_next h
      exact ⟨⟨_, ht⟩, .inr (.inl hst)⟩
    · obtain ⟨hst, -, ht⟩ := execEncPrefix_next h
      exact ⟨⟨_, ht⟩, .inr (.inl hst)⟩
    · obtain ⟨hst, -, hi, ht⟩ := execEncCont_next h
      exact ⟨⟨_, ht⟩, .inr (.inr hst)⟩
    · obtain ⟨hst, -, hi, ht⟩ := execEncFinal_next h
      exact ⟨⟨_, ht⟩, .inr (.inr hst)⟩
  · exact ⟨⟨_, (execEncode_next h).2⟩, .inl ⟨v, .inl rfl⟩⟩
  · exact ⟨⟨_, (execEncStart_next h).2⟩, .inl ⟨v, .inr rfl⟩⟩

/-- The other rows write `DEC` and the count of free values alone, and all but the two requests run only while
`DEC` is busy. -/
theorem exec_decoderRows_next {i : Instr} {s t : State} (hi : ¬ encoderRows i) (h : exec i s = .next t) :
    DecWrites s t ∧
      ((∃ a e, i = .decode a e ∨ i = .decStart a e) ∨ s.dec.st = .first ∨ s.dec.st = .accum) := by
  cases i with
  | encode v => exact absurd (.inr ⟨v, .inl rfl⟩) hi
  | encStart v => exact absurd (.inr ⟨v, .inr rfl⟩) hi
  | encSingle | encPrefix | encCont | encFinal => exact absurd (.inl (by simp)) hi
  | decode a e =>
    obtain ⟨-, -, -, ht⟩ := execDecode_next h
    exact ⟨⟨_, _, ht⟩, .inl ⟨a, e, .inl rfl⟩⟩
  | decStart a e =>
    obtain ⟨-, -, -, rfl⟩ := execDecStart_next h
    exact ⟨decWrites_withDec _ _, .inl ⟨a, e, .inr rfl⟩⟩
  | decOob0 =>
    obtain ⟨hst, -, rfl⟩ := execDecOob0_next h
    exact ⟨decWrites_withDec _ _, .inr (.inl hst)⟩
  | decOobk =>
    obtain ⟨hst, -, rfl⟩ := execDecOobk_next h
    exact ⟨decWrites_withDec _ _, .inr (.inr hst)⟩
  | decSingle => exact (takeSingle_writes (execDecSingle_next h).2).imp_right fun hst => .inr (.inl hst)
  | decPrefix => exact (takePrefix_writes (execDecPrefix_next h).2).imp_right fun hst => .inr (.inl hst)
  | decCont => exact (takeCont_writes (execDecCont_next h).2).imp_right fun hst => .inr (.inr hst)
  | decFinal => exact (takeFinal_writes (execDecFinal_next h).2).imp_right fun hst => .inr (.inr hst)
  | byteSingleA v | byteSingleB v | byteSingleC v | byteSingleD v =>
    exact (takeSingle_writes h).imp_right fun hst => .inr (.inl hst)
  | bytePrefix n => exact (takePrefix_writes h).imp_right fun hst => .inr (.inl hst)
  | byteCont p => exact (takeCont_writes h).imp_right fun hst => .inr (.inr hst)
  | byteFinal p => exact (takeFinal_writes h).imp_right fun hst => .inr (.inr hst)

/-- Settles O45: a row of the unit that is no request needs the unit busy, which `DONE` is not, and a row of the
other unit does not write it. -/
theorem responsesStandUntilTheNextRequest : Obligations.ResponsesStandUntilTheNextRequest := by
  intro i s t h
  by_cases hi : encoderRows i
  · obtain ⟨⟨x, rfl⟩, hwhen⟩ := exec_encoderRows_next hi h
    refine ⟨fun hdone hreq => ?_, fun _ _ => rfl⟩
    rcases hwhen with ⟨v, hv⟩ | hbusy
    · exact absurd hv (not_or.mpr (hreq v))
    · simp [hdone] at hbusy
  · obtain ⟨hwrites, hwhen⟩ := exec_decoderRows_next hi h
    refine ⟨fun _ _ => hwrites.enc_eq, fun hdone hreq => ?_⟩
    rcases hwhen with ⟨a, e, hae⟩ | hbusy
    · exact absurd hae (not_or.mpr (hreq a e))
    · simp [hdone] at hbusy

/-! The response of `ENCODE` is the sequence of its value. -/

/-- Each turn of the loop of `ENC_SEQ` divides the working value by 128 (spec/40_encoder.md R98). -/
theorem encChain_length_le {n w : Nat} (fuel : Nat) (hw : w < 128 ^ (n + 1)) :
    (encChain fuel w).length ≤ n + 1 := by
  induction fuel generalizing n w with
  | zero => simp [encChain]
  | succ fuel ih =>
    by_cases hge : 128 ≤ w
    · obtain _ | n := n
      · omega
      · have hnext : (w - 128) / 2 ^ 7 < 128 ^ (n + 1) := by
          rw [pow_succ] at hw
          omega
        simpa [encChain, hge] using ih hnext
    · simp [encChain, hge]

/-- No encoding of a 64-bit value overruns `OBUF` (spec/40_encoder.md R98, spec/20_memory.md R56). -/
theorem encSeq_length_le {v : Nat} (hv : v < 2 ^ 64) : (encSeq v).length ≤ 10 := by
  unfold encSeq
  split
  · simp
  · have hchain := encChain_length_le (n := 8) 64 (show (v - 240) / 2 ^ 4 < 128 ^ (8 + 1) by omega)
    simpa using Nat.lt_succ_of_le hchain

/-- The bytes written to the front of `OBUF` are read back, if they fit. -/
theorem obufWrite_take (o : Vector Byte 10) {bs : List Byte} (hlen : bs.length ≤ 10) :
    (obufWrite o 0 bs).toList.take bs.length = bs := by
  apply List.ext_getElem?
  intro j
  by_cases hj : j < bs.length
  · have hget := obufWrite_get o 0 bs j (hj.trans_le hlen)
    simpa [List.getElem?_take, hj] using hget
  · simp [hj]

/-- `ENCODE` at rest answers, and its response is `ENC_SEQ(VALUE)` whatever the state was. -/
theorem exec_encode_response {s : State} (v : Word) (hrest : s.enc.st = .idle ∨ s.enc.st = .done) :
    ∃ t, exec (.encode v) s = .next t ∧ encResponse? t.enc = some (encSeq v.toNat) := by
  have hlen := encSeq_length_le v.isLt
  have hidx : (BitVec.ofNat 4 (encSeq v.toNat).length).toNat = (encSeq v.toNat).length :=
    Nat.mod_eq_of_lt (by omega)
  refine ⟨_, if_pos ((encAtRest_iff _).mpr hrest), ?_⟩
  simp only [encResponse?, State.withEnc_enc, if_true, hidx, obufWrite_take _ hlen]

/-! The response of `DECODE` is a function of the parameters and the bytes of the range. -/

/-- The response of a unit in `DONE` with the registers of `r`. -/
def DecodeEnd.response (r : DecodeEnd) : DecResponse :=
  match r.status with
  | .ok => .ok r.acc (r.off + 1)
  | .oob => .outOfBounds

theorem decResponse?_of_decodeEnd (r : DecodeEnd) (start last : Nat) :
    decResponse? { st := .done, start := start, last := last, acc := r.acc, off := r.off, status := r.status } =
      some r.response := by
  simp only [decResponse?, DecodeEnd.response, if_true]
  cases r.status <;> rfl

/-- `DECODE` at rest answers, and its response is that of `decodeRange`. -/
theorem exec_decode_response {s : State} {a e : Nat} (hrest : s.dec.st = .idle ∨ s.dec.st = .done)
    (ha : a < 2 ^ s.params.aw) (he : e < 2 ^ s.params.aw) :
    ∃ t, exec (.decode a e) s = .next t ∧
      decResponse? t.dec = some (decodeRange s.params.decOvf s.mem a e s.dec.acc s.draws).response := by
  have hfits : (addressFits s.params a && addressFits s.params e) = true := by
    rw [Bool.and_eq_true]
    exact ⟨(addressFits_iff _ _).mpr ha, (addressFits_iff _ _).mpr he⟩
  refine ⟨_, (if_pos ((decAtRest_iff _).mpr hrest)).trans (if_pos hfits), ?_⟩
  exact decResponse?_of_decodeEnd _ _ _

/-- The loop of `DECODE` reads no byte outside what is left of its range. -/
theorem decodeLoop_congr_mem (o : DecOvf) {m m' : Memory} {start left k : Nat} (acc : Word) (draws : Nat)
    (hmem : ∀ x, start + k ≤ x → x < start + k + left → memRead m' x = memRead m x) :
    decodeLoop o m' start left k acc draws = decodeLoop o m start left k acc draws := by
  induction left generalizing k acc draws with
  | zero => rfl
  | succ left ih =>
    have hbyte : memRead m' (start + k) = memRead m (start + k) := hmem _ (by omega) (by omega)
    simp only [decodeLoop, hbyte]
    rw [ih _ _ fun x hlo hhi => hmem x (by omega) (by omega)]

/-- `DECODE` reads no byte outside its range (spec/20_memory.md R55). -/
theorem decodeRange_congr_mem (o : DecOvf) {m m' : Memory} {start last : Nat} (stale : Word) (draws : Nat)
    (hmem : ∀ x, start ≤ x → x ≤ last → memRead m' x = memRead m x) :
    decodeRange o m' start last stale draws = decodeRange o m start last stale draws := by
  unfold decodeRange
  by_cases hempty : last < start
  · simp only [if_pos hempty]
  · rw [hmem start le_rfl (by omega),
      decodeLoop_congr_mem o _ draws fun x hlo hhi => hmem x (by omega) (by omega)]

/-- What `DEC.ACC` held before is in no response: only an empty range keeps it, and that range fails. -/
theorem decodeRange_response_stale (o : DecOvf) (m : Memory) (start last : Nat) (stale stale' : Word)
    (draws : Nat) :
    (decodeRange o m start last stale' draws).response = (decodeRange o m start last stale draws).response := by
  unfold decodeRange
  split <;> rfl

/-- Under `wrap` no free value is used, so their count passes through the loop. -/
theorem decodeLoop_wrap_draws (m : Memory) (start left k : Nat) (acc : Word) (draws draws' : Nat) :
    decodeLoop .wrap m start left k acc draws' =
      { decodeLoop .wrap m start left k acc draws with draws := draws' } := by
  induction left generalizing k acc with
  | zero => rfl
  | succ left ih =>
    simp only [decodeLoop, accumulate_exact (.inl rfl)]
    split
    · exact ih _ _
    · rfl

theorem decodeRange_wrap_draws (m : Memory) (start last : Nat) (stale : Word) (draws draws' : Nat) :
    decodeRange .wrap m start last stale draws' =
      { decodeRange .wrap m start last stale draws with draws := draws' } := by
  unfold decodeRange
  split
  · rfl
  · split
    · exact decodeLoop_wrap_draws _ _ _ _ _ _ _
    · rfl

/-- The response of `decodeRange` needs the parameter and the bytes of the range, and the count of free values
only where `any` may use one (assumption 5). -/
theorem decodeRange_response_congr {o : DecOvf} {m m' : Memory} {start last : Nat} (stale stale' : Word)
    {draws draws' : Nat} (hdraws : o = .wrap ∨ draws' = draws)
    (hmem : ∀ x, start ≤ x → x ≤ last → memRead m' x = memRead m x) :
    (decodeRange o m' start last stale' draws').response =
      (decodeRange o m start last stale draws).response := by
  rw [decodeRange_congr_mem o stale' draws' hmem, decodeRange_response_stale o m start last stale stale']
  rcases hdraws with rfl | rfl
  · rw [decodeRange_wrap_draws m start last stale draws draws']
    rfl
  · rfl

/-- Settles O46: the response of `ENCODE` is `ENC_SEQ` of its value, and that of `DECODE` is the one of
`decodeRange`, which neither the units nor the bytes outside the range enter. -/
theorem responsesForgetEarlierOperations : Obligations.ResponsesForgetEarlierOperations := by
  refine ⟨?encode, ?decode⟩
  case encode =>
    intro v s s' hrest hrest'
    obtain ⟨t, ht, hresp⟩ := exec_encode_response v hrest
    obtain ⟨t', ht', hresp'⟩ := exec_encode_response v hrest'
    exact ⟨t, t', ht, ht', hresp.trans hresp'.symm, by simp [hresp]⟩
  case decode =>
    intro a e s s' hrest hrest' hparams hdraws ha he hmem
    obtain ⟨t, ht, hresp⟩ := exec_decode_response hrest ha he
    obtain ⟨t', ht', hresp'⟩ := exec_decode_response hrest' (hparams ▸ ha) (hparams ▸ he)
    rw [hparams, decodeRange_response_congr s.dec.acc s'.dec.acc hdraws hmem] at hresp'
    exact ⟨t, t', ht, ht', hresp.trans hresp'.symm, by simp [hresp]⟩

end Sys2Proof.Machine
end

section
/-! SUPPORT. What the rows of each unit depend on: those of `ENC` on `ENC`; those of `DEC` on `DEC`, the parameters,
the count of free values and the bytes of `MEM` they read (spec/20_memory.md R55, R62). The statements on
spec/20_memory.md that follow from it. -/

namespace Sys2Proof.Machine

/-! The addresses that `DECODE` reads. -/

/-- The loop of `DECODE` reads one address after the other. -/
theorem loopReads_eq_range' (m : Memory) (start left k : Nat) :
    loopReads m start left k = List.range' (start + k) (loopReads m start left k).length := by
  induction left generalizing k with
  | zero => rfl
  | succ left ih =>
    unfold loopReads
    split
    · rw [List.length_cons, List.range'_succ, Nat.add_assoc, ← ih (k + 1)]
    · rfl

/-- The offset moves past each byte the loop reads, but for the final byte of a success. -/
theorem loopReads_length (o : DecOvf) (m : Memory) (start left k : Nat) (acc : Word) (draws : Nat) :
    k + (loopReads m start left k).length = (decodeLoop o m start left k acc draws).off +
      (if (decodeLoop o m start left k acc draws).status = .ok then 1 else 0) := by
  induction left generalizing k acc draws with
  | zero => rfl
  | succ left ih =>
    unfold loopReads decodeLoop
    split
    · rw [List.length_cons, ← ih]
      omega
    · rfl

/-- `DECODE` reads `START`, `START + 1`, … in order. -/
theorem decodeReads_eq_range' (m : Memory) (start last : Nat) :
    decodeReads m start last = List.range' start (decodeReads m start last).length := by
  unfold decodeReads
  split
  · rfl
  · split
    · rw [List.length_cons, List.range'_succ, ← loopReads_eq_range']
    · rfl

theorem decodeReads_length_eq_off (o : DecOvf) (m : Memory) (start last : Nat) (stale : Word) (draws : Nat) :
    (decodeReads m start last).length = (decodeRange o m start last stale draws).off +
      (if (decodeRange o m start last stale draws).status = .ok then 1 else 0) := by
  unfold decodeReads decodeRange
  split
  · rfl
  · split
    · rw [List.length_cons, Nat.add_comm]
      exact loopReads_length ..
    · rfl

/-- `DECODE` reads the bytes it consumes, or on failure its whole range. -/
theorem decodeReads_length (o : DecOvf) (m : Memory) (start last : Nat) (stale : Word) (draws : Nat) :
    (decodeReads m start last).length =
      if (decodeRange o m start last stale draws).status = .ok
      then (decodeRange o m start last stale draws).off + 1 else last + 1 - start := by
  rw [decodeReads_length_eq_off o m start last stale draws]
  rcases decodeRange_end o m start last stale draws with ⟨hok, -⟩ | ⟨hoob, hoff⟩
  · simp [hok]
  · simp [hoob, hoff]

theorem decodeReads_length_le (m : Memory) (start last : Nat) :
    (decodeReads m start last).length ≤ last + 1 - start := by
  rw [decodeReads_length_eq_off .wrap m start last 0#64 0]
  rcases decodeRange_end .wrap m start last 0#64 0 with ⟨hok, hin⟩ | ⟨hoob, hoff⟩
  · simp only [hok, if_true]
    omega
  · simp [hoob, hoff]

theorem mem_range_of_mem_decodeReads {m : Memory} {start last x : Nat} (hx : x ∈ decodeReads m start last) :
    start ≤ x ∧ x ≤ last := by
  rw [decodeReads_eq_range', List.mem_range'_1] at hx
  have hlen := decodeReads_length_le m start last
  omega

/-! The result of `DECODE` depends on the bytes it reads and on no other. -/

theorem decodeLoop_congr_reads (o : DecOvf) {m m' : Memory} {start left k : Nat} (acc : Word) (draws : Nat)
    (hmem : ∀ x ∈ loopReads m start left k, memRead m' x = memRead m x) :
    decodeLoop o m' start left k acc draws = decodeLoop o m start left k acc draws := by
  induction left generalizing k acc draws with
  | zero => rfl
  | succ left ih =>
    unfold loopReads at hmem
    have hbyte : memRead m' (start + k) = memRead m (start + k) := hmem _ (by split <;> simp)
    simp only [decodeLoop, hbyte]
    by_cases hcont : byteGe128 (memRead m (start + k)) = true
    · rw [if_pos hcont] at hmem
      rw [if_pos hcont, if_pos hcont, ih _ _ (List.forall_mem_cons.mp hmem).2]
    · rw [if_neg hcont, if_neg hcont]

theorem decodeRange_congr_reads (o : DecOvf) {m m' : Memory} {start last : Nat} (stale : Word) (draws : Nat)
    (hmem : ∀ x ∈ decodeReads m start last, memRead m' x = memRead m x) :
    decodeRange o m' start last stale draws = decodeRange o m start last stale draws := by
  unfold decodeReads at hmem
  unfold decodeRange
  by_cases hempty : last < start
  · rw [if_pos hempty, if_pos hempty]
  · rw [if_neg hempty] at hmem
    have hbyte : memRead m' start = memRead m start := hmem _ (by split <;> simp)
    rw [if_neg hempty, if_neg hempty, hbyte]
    by_cases hprefix : byteGe240 (memRead m start) = true
    · rw [if_pos hprefix] at hmem
      rw [if_pos hprefix, if_pos hprefix, decodeLoop_congr_reads o _ _ (List.forall_mem_cons.mp hmem).2]
    · rw [if_neg hprefix, if_neg hprefix]

/-- The state in which a `DECODE` that ends with `r` leaves the machine. -/
def DecodeEnd.deliver (r : DecodeEnd) (start last : Nat) (s : State) : State :=
  (s.withDec { st := .done, start := start, last := last, acc := r.acc, off := r.off,
               status := r.status }).withDraws r.draws

/-- `DECODE` at rest answers, and delivers what `decodeRange` gives. -/
theorem exec_decode_of_rest {s : State} {a e : Nat} (hrest : s.dec.st = .idle ∨ s.dec.st = .done)
    (ha : a < 2 ^ s.params.aw) (he : e < 2 ^ s.params.aw) :
    exec (.decode a e) s =
      .next ((decodeRange s.params.decOvf s.mem a e s.dec.acc s.draws).deliver a e s) := by
  obtain ⟨t, ht, -⟩ := exec_decode_response hrest ha he
  obtain ⟨-, -, -, rfl⟩ := execDecode_next ht
  exact ht

/-! What a row of `DEC` depends on. `ENC` and `MEM` are replaced together; each is replaced alone below. -/

section
variable {s t : State} (x : Enc) (m : Memory)

theorem takeSingle_local {b : Byte} (h : takeSingle b s = .next t) :
    takeSingle b ((s.withEnc x).withMem m) = .next ((t.withEnc x).withMem m) := by
  obtain ⟨hst, hin, hb, rfl⟩ := takeSingle_next h
  exact if_pos ⟨hst, hin, hb⟩

theorem takePrefix_local {b : Byte} (h : takePrefix b s = .next t) :
    takePrefix b ((s.withEnc x).withMem m) = .next ((t.withEnc x).withMem m) := by
  obtain ⟨hst, hin, hb, rfl⟩ := takePrefix_next h
  exact if_pos ⟨hst, hin, hb⟩

theorem takeCont_local {b : Byte} (h : takeCont b s = .next t) :
    takeCont b ((s.withEnc x).withMem m) = .next ((t.withEnc x).withMem m) := by
  obtain ⟨hst, hin, hb, rfl⟩ := takeCont_next h
  exact if_pos ⟨hst, hin, hb⟩

theorem takeFinal_local {b : Byte} (h : takeFinal b s = .next t) :
    takeFinal b ((s.withEnc x).withMem m) = .next ((t.withEnc x).withMem m) := by
  obtain ⟨hst, hin, hb, rfl⟩ := takeFinal_next h
  exact if_pos ⟨hst, hin, hb⟩

/-- A byte step depends on the byte it reads, and otherwise on what its handler depends on. -/
theorem decReadByte_local {st : DecSt} {a : Nat} {handle : Byte → State → Answer}
    (hhandle : ∀ {b}, handle b s = .next t →
      handle b ((s.withEnc x).withMem m) = .next ((t.withEnc x).withMem m))
    (hmem : memRead m a = memRead s.mem a) (h : decReadByte st a s handle = .next t) :
    decReadByte st a ((s.withEnc x).withMem m) handle = .next ((t.withEnc x).withMem m) := by
  obtain ⟨hst, hin, ha, hbyte⟩ := decReadByte_next h
  rw [decReadByte_of_inb (s := (s.withEnc x).withMem m) hst hin ha, State.withMem_mem, hmem]
  exact hhandle hbyte

/-- The addresses of `MEM` that a row reads in the state `s`. -/
def rowReads (i : Instr) (s : State) : List Nat :=
  match i with
  | .decode a e => decodeReads s.mem a e
  | .decSingle | .decPrefix => [s.dec.start]
  | .decCont | .decFinal => [s.dec.start + s.dec.off]
  | _ => []

/-- A row of `DEC` depends on nothing of `ENC`, and of `MEM` on the bytes it reads. -/
theorem exec_decoderRows_local {i : Instr} (hi : ¬ encoderRows i)
    (hmem : ∀ a ∈ rowReads i s, memRead m a = memRead s.mem a) (h : exec i s = .next t) :
    exec i ((s.withEnc x).withMem m) = .next ((t.withEnc x).withMem m) := by
  cases i with
  | encode v => exact absurd (.inr ⟨v, .inl rfl⟩) hi
  | encStart v => exact absurd (.inr ⟨v, .inr rfl⟩) hi
  | encSingle | encPrefix | encCont | encFinal => exact absurd (.inl (by simp)) hi
  | decode a e =>
    obtain ⟨hrest, ha, he, rfl⟩ := execDecode_next h
    have hrange := decodeRange_congr_reads s.params.decOvf s.dec.acc s.draws hmem
    refine (exec_decode_of_rest (s := (s.withEnc x).withMem m) hrest ha he).trans ?_
    simp only [State.withMem_params, State.withEnc_params, State.withMem_mem, State.withMem_dec,
      State.withEnc_dec, State.withMem_draws, State.withEnc_draws, hrange]
    rfl
  | decStart a e =>
    obtain ⟨hrest, ha, he, rfl⟩ := execDecStart_next h
    have hfits : (addressFits s.params a && addressFits s.params e) = true := by
      simp [addressFits_iff, ha, he]
    exact (if_pos ((decAtRest_iff _).mpr hrest)).trans (if_pos hfits)
  | decOob0 =>
    obtain ⟨hst, hout, rfl⟩ := execDecOob0_next h
    exact if_pos ⟨hst, hout⟩
  | decOobk =>
    obtain ⟨hst, hout, rfl⟩ := execDecOobk_next h
    exact if_pos ⟨hst, decide_eq_false (Nat.not_le.mpr hout)⟩
  | decSingle => exact decReadByte_local x m (takeSingle_local x m) (hmem _ (List.mem_singleton.mpr rfl)) h
  | decPrefix => exact decReadByte_local x m (takePrefix_local x m) (hmem _ (List.mem_singleton.mpr rfl)) h
  | decCont => exact decReadByte_local x m (takeCont_local x m) (hmem _ (List.mem_singleton.mpr rfl)) h
  | decFinal => exact decReadByte_local x m (takeFinal_local x m) (hmem _ (List.mem_singleton.mpr rfl)) h
  | byteSingleA v | byteSingleB v | byteSingleC v | byteSingleD v => exact takeSingle_local x m h
  | bytePrefix n => exact takePrefix_local x m h
  | byteCont p => exact takeCont_local x m h
  | byteFinal p => exact takeFinal_local x m h

variable {m} in
theorem exec_decoderRows_withMem {i : Instr} (hi : ¬ encoderRows i)
    (hmem : ∀ a ∈ rowReads i s, memRead m a = memRead s.mem a) (h : exec i s = .next t) :
    exec i (s.withMem m) = .next (t.withMem m) := by
  obtain ⟨d, n, rfl⟩ := (exec_decoderRows_next hi h).1
  exact exec_decoderRows_local s.enc m hi hmem h

theorem exec_decoderRows_withEnc {i : Instr} (hi : ¬ encoderRows i) (h : exec i s = .next t) :
    exec i (s.withEnc x) = .next (t.withEnc x) := by
  obtain ⟨d, n, rfl⟩ := (exec_decoderRows_next hi h).1
  exact exec_decoderRows_local x s.mem hi (fun _ _ => rfl) h

/-- A row of `ENC` depends on nothing of `DEC` and uses no free value. -/
theorem exec_encoderRows_local {i : Instr} (d : Dec) (n : Nat) (hi : encoderRows i) (h : exec i s = .next t) :
    exec i ((s.withDec d).withDraws n) = .next ((t.withDec d).withDraws n) := by
  rcases hi with hstep | ⟨v, rfl | rfl⟩
  · simp only [List.mem_cons, List.not_mem_nil, or_false] at hstep
    rcases hstep with rfl | rfl | rfl | rfl
    · obtain ⟨hst, hlt, rfl⟩ := execEncSingle_next h
      exact (if_pos ⟨hst, hlt⟩).trans (encEmit_of_lt (by decide) ..)
    · obtain ⟨hst, hge, rfl⟩ := execEncPrefix_next h
      exact (if_pos ⟨hst, hge⟩).trans (encEmit_of_lt (by decide) ..)
    · obtain ⟨hst, hge, hi, rfl⟩ := execEncCont_next h
      exact (if_pos ⟨hst, hge⟩).trans (encEmit_of_lt hi ..)
    · obtain ⟨hst, hlt, hi, rfl⟩ := execEncFinal_next h
      exact (if_pos ⟨hst, hlt⟩).trans (encEmit_of_lt hi ..)
  · obtain ⟨hrest, rfl⟩ := execEncode_next h
    exact if_pos ((encAtRest_iff _).mpr hrest)
  · obtain ⟨hrest, rfl⟩ := execEncStart_next h
    exact if_pos ((encAtRest_iff _).mpr hrest)

end

/-- Settles O27: the reads are a run of addresses as long as `decodeRange` says, and `DECODE` is a row of `DEC`. -/
theorem decodeReadsOnlyTheBytesItReports : Obligations.DecodeReadsOnlyTheBytesItReports := by
  intro a e s hrest ha he
  have hexec := exec_decode_of_rest hrest ha he
  refine ⟨_, hexec, ?inOrder, fun x hx => mem_range_of_mem_decodeReads hx,
    fun m hmem => exec_decoderRows_withMem (by simp [encoderRows]) hmem hexec⟩
  case inOrder =>
    rw [decodeReads_eq_range', decodeReads_length s.params.decOvf s.mem a e s.dec.acc s.draws,
      List.range'_eq_map_range]
    rfl

/-- Settles O28: each row reads `START + OFF` or nothing; before the first byte that is `START`. -/
theorem decoderStepReadsOneByte : Obligations.DecoderStepReadsOneByte := by
  refine ⟨?byteSteps, ?otherSteps⟩
  case byteSteps =>
    intro s t m hoff hmem j hj h
    have hfirst : s.dec.st = .first → memRead m s.dec.start = memRead s.mem s.dec.start := by
      intro hst
      simpa [hoff hst] using hmem
    simp only [List.mem_cons, List.not_mem_nil, or_false] at hj
    rcases hj with rfl | rfl | rfl | rfl
    · have hst := (takeSingle_next (execDecSingle_next h).2).1
      exact exec_decoderRows_withMem (by simp [encoderRows]) (by simpa [rowReads] using hfirst hst) h
    · have hst := (takePrefix_next (execDecPrefix_next h).2).1
      exact exec_decoderRows_withMem (by simp [encoderRows]) (by simpa [rowReads] using hfirst hst) h
    · exact exec_decoderRows_withMem (by simp [encoderRows]) (by simpa [rowReads] using hmem) h
    · exact exec_decoderRows_withMem (by simp [encoderRows]) (by simpa [rowReads] using hmem) h
  case otherSteps =>
    intro s t m a e j hj h
    simp only [List.mem_cons, List.not_mem_nil, or_false] at hj
    rcases hj with rfl | rfl | rfl <;>
      exact exec_decoderRows_withMem (by simp [encoderRows]) (by simp [rowReads]) h

/-- Settles O43: a row of `ENC` writes `ENC`, and any other row `DEC` and the count of free values. -/
theorem instructionsWriteOnlyTheirUnit : Obligations.InstructionsWriteOnlyTheirUnit := by
  intro i s t h
  by_cases hi : encoderRows i
  · obtain ⟨⟨x, rfl⟩, -⟩ := exec_encoderRows_next hi h
    exact ⟨rfl, rfl, rfl, rfl, fun _ => ⟨rfl, rfl⟩, fun hn => absurd hi hn⟩
  · obtain ⟨⟨d, n, rfl⟩, -⟩ := exec_decoderRows_next hi h
    exact ⟨rfl, rfl, rfl, rfl, fun hp => absurd hp hi, fun _ => rfl⟩

/-! Each unit moves by its own rows, so the moves of the two commute. -/

theorem encoderRows_of_encEnabled {e : Enc} {i : Instr} (h : encEnabled e = some i) : encoderRows i := by
  unfold encEnabled at h
  split at h
  · cases h
  · cases h
  · split at h <;> cases h <;> simp [encoderRows]
  · split at h <;> cases h <;> simp [encoderRows]

/-- A decoded byte is of a class, which is no row of `ENC`. -/
theorem not_encoderRows_decodeByte (pos : Position) (b : Byte) : ¬ encoderRows (decodeByte pos b) := by
  cases pos with
  | first =>
    show ¬ encoderRows (decodeFirst b)
    unfold decodeFirst
    (repeat' split) <;> simp [encoderRows]
  | later =>
    show ¬ encoderRows (decodeLater b)
    unfold decodeLater
    split <;> simp [encoderRows]

theorem not_encoderRows_of_decFetchAt {s : State} {pos : Position} {a : Nat} {i : Instr}
    (h : decFetchAt s pos a = .ok (some i)) : ¬ encoderRows i := by
  unfold decFetchAt at h
  split at h
  · cases h
    exact not_encoderRows_decodeByte _ _
  · cases h

theorem not_encoderRows_of_decFetch {s : State} {i : Instr} (h : decFetch s = .ok (some i)) :
    ¬ encoderRows i := by
  unfold decFetch at h
  split at h
  · cases h
  · cases h
  · split at h
    · exact not_encoderRows_of_decFetchAt h
    · cases h
      simp [encoderRows]
  · split at h
    · exact not_encoderRows_of_decFetchAt h
    · cases h
      simp [encoderRows]

/-- All a move of `ENC` can do: it writes `ENC`, and does the same whatever `DEC` holds. -/
theorem encMove_next {s t : State} (h : encMove s = .next t) :
    (∃ x, t = s.withEnc x) ∧
      ∀ d n, encMove ((s.withDec d).withDraws n) = .next ((t.withDec d).withDraws n) := by
  unfold encMove at h
  cases hen : encEnabled s.enc with
  | none =>
    simp only [hen] at h
    cases h
    exact ⟨⟨s.enc, rfl⟩, fun d n => by simp [encMove, hen]⟩
  | some i =>
    simp only [hen] at h
    have hi := encoderRows_of_encEnabled hen
    exact ⟨(exec_encoderRows_next hi h).1, fun d n => by
      simpa [encMove, hen] using exec_encoderRows_local d n hi h⟩

@[simp] theorem decFetch_withEnc (s : State) (x : Enc) : decFetch (s.withEnc x) = decFetch s := rfl

/-- All a move of `DEC` can do: it writes `DEC`, and does the same whatever `ENC` holds. -/
theorem decMove_next {s t : State} (h : decMove s = .next t) :
    DecWrites s t ∧ ∀ x, decMove (s.withEnc x) = .next (t.withEnc x) := by
  unfold decMove at h
  cases hfetch : decFetch s with
  | error r => simp [hfetch] at h
  | ok fetched =>
    cases fetched with
    | none =>
      simp only [hfetch] at h
      cases h
      exact ⟨decWrites_withDec s s.dec, fun x => by simp [decMove, hfetch]⟩
    | some i =>
      simp only [hfetch] at h
      have hi := not_encoderRows_of_decFetch hfetch
      exact ⟨(exec_decoderRows_next hi h).1, fun x => by
        simpa [decMove, hfetch] using exec_decoderRows_withEnc x hi h⟩

/-- Settles O44: each move does the same after the other one, and the two write different fields. -/
theorem unitsDoNotInteract : Obligations.UnitsDoNotInteract := by
  intro s s1 s2 henc hdec
  obtain ⟨⟨x, rfl⟩, henc'⟩ := encMove_next henc
  obtain ⟨⟨d, n, rfl⟩, hdec'⟩ := decMove_next hdec
  exact ⟨_, hdec' x, henc' d n⟩

/-! No fault. The two faults are an index outside `OBUF` and an address outside `MEM`; the invariant bounds the
index in `CHAIN` and `DEC.END`, which no address read exceeds. -/

/-- The answer is a next state or a refusal. -/
def NoFault (ans : Answer) : Prop := ∀ r, ans ≠ .fault r

theorem noFault_next (s : State) : NoFault (.next s) := nofun

theorem noFault_refused (r : Refusal) : NoFault (.refused r) := nofun

theorem noFault_ite {c : Prop} [Decidable c] {x y : Answer} (hx : c → NoFault x) (hy : NoFault y) :
    NoFault (if c then x else y) := by
  split
  · next hc => exact hx hc
  · exact hy

/-- A guarded answer that is refused where the guard is false. -/
theorem noFault_guard {c : Prop} [Decidable c] {s : State} {r : Refusal} :
    NoFault (if c then .next s else .refused r) :=
  noFault_ite (fun _ => noFault_next _) (noFault_refused _)

theorem noFault_encEmit {s : State} {i : Nat} {b : Byte} {w : Word} {idx : BitVec 4} {st : EncSt} (hi : i < 10) :
    NoFault (encEmit s i b w idx st) := by
  rw [encEmit_of_lt hi]
  exact noFault_next _

theorem noFault_takeSingle (b : Byte) (s : State) : NoFault (takeSingle b s) := noFault_guard

theorem noFault_takePrefix (b : Byte) (s : State) : NoFault (takePrefix b s) := noFault_guard

theorem noFault_takeCont (b : Byte) (s : State) : NoFault (takeCont b s) := noFault_guard

theorem noFault_takeFinal (b : Byte) (s : State) : NoFault (takeFinal b s) := noFault_guard

theorem noFault_decReadByte {s : State} (hlast : s.dec.last < 2 ^ s.params.aw) (st : DecSt) (a : Nat)
    {handle : Byte → State → Answer} (hhandle : ∀ b s, NoFault (handle b s)) :
    NoFault (decReadByte st a s handle) := by
  by_cases hg : s.dec.st = st ∧ a ≤ s.dec.last
  · rw [decReadByte_of_inb hg.1 hg.2 (hg.2.trans_lt hlast)]
    exact hhandle _ _
  · rw [decReadByte, if_neg hg]
    exact noFault_refused _

theorem idx_lt_of_chain {e : Enc} (hinv : encInv e = true) (hst : e.st = .chain) : e.idx.toNat < 10 := by
  simp only [encInv, hst, decide_eq_true_eq] at hinv
  omega

theorem last_lt_of_decInv {p : Params} {d : Dec} (hinv : decInv p d = true) : d.last < 2 ^ p.aw := by
  simp only [decInv, Bool.and_eq_true, addressFits_iff] at hinv
  exact hinv.1.2

/-- No instruction faults from a state with the invariant. -/
theorem noFault_exec {s : State} (hinv : Inv s = true) (i : Instr) : NoFault (exec i s) := by
  obtain ⟨-, henc, hdec⟩ := (inv_iff s).mp hinv
  have hlast := last_lt_of_decInv hdec
  cases i with
  | encode v => exact noFault_guard
  | encStart v => exact noFault_guard
  | encSingle => exact noFault_ite (fun _ => noFault_encEmit (by decide)) (noFault_refused _)
  | encPrefix => exact noFault_ite (fun _ => noFault_encEmit (by decide)) (noFault_refused _)
  | encCont =>
    exact noFault_ite (fun hg => noFault_encEmit (idx_lt_of_chain henc hg.1)) (noFault_refused _)
  | encFinal =>
    exact noFault_ite (fun hg => noFault_encEmit (idx_lt_of_chain henc hg.1)) (noFault_refused _)
  | decode a e => exact noFault_ite (fun _ => noFault_guard) (noFault_refused _)
  | decStart a e => exact noFault_ite (fun _ => noFault_guard) (noFault_refused _)
  | decOob0 => exact noFault_guard
  | decOobk => exact noFault_guard
  | decSingle => exact noFault_decReadByte hlast _ _ noFault_takeSingle
  | decPrefix => exact noFault_decReadByte hlast _ _ noFault_takePrefix
  | decCont => exact noFault_decReadByte hlast _ _ noFault_takeCont
  | decFinal => exact noFault_decReadByte hlast _ _ noFault_takeFinal
  | byteSingleA v | byteSingleB v | byteSingleC v | byteSingleD v => exact noFault_takeSingle v s
  | bytePrefix n => exact noFault_takePrefix _ s
  | byteCont p => exact noFault_takeCont _ s
  | byteFinal p => exact noFault_takeFinal _ s

theorem noFault_encMove {s : State} (hinv : Inv s = true) : NoFault (encMove s) := by
  unfold encMove
  split
  · exact noFault_exec hinv _
  · exact noFault_next _

/-- What `DEC` fetches lies in bounds, so in `MEM`. -/
theorem decFetch_ne_error {s : State} (hlast : s.dec.last < 2 ^ s.params.aw) (r : Fault) :
    decFetch s ≠ .error r := by
  cases hst : s.dec.st with
  | idle => simp [decFetch, hst]
  | done => simp [decFetch, hst]
  | first =>
    rcases Nat.lt_or_ge s.dec.last s.dec.start with hout | hin
    · simp [decFetch_first_of_oob hst hout]
    · simp [decFetch_first_of_inb hst hin, decFetchAt_of_lt (hin.trans_lt hlast)]
  | accum =>
    rcases Nat.lt_or_ge s.dec.last (s.dec.start + s.dec.off) with hout | hin
    · simp [decFetch_accum_of_oob hst hout]
    · simp [decFetch_accum_of_inb hst hin, decFetchAt_of_lt (hin.trans_lt hlast)]

theorem noFault_decMove {s : State} (hinv : Inv s = true) : NoFault (decMove s) := by
  obtain ⟨-, -, hdec⟩ := (inv_iff s).mp hinv
  unfold decMove
  split
  · exact noFault_exec hinv _
  · exact noFault_next _
  · next hfetch => exact absurd hfetch (decFetch_ne_error (last_lt_of_decInv hdec) _)

theorem noFault_hostWrite {s : State} {a : Nat} {bytes : List Byte} {rest : List HostAction} :
    NoFault (hostWrite s a bytes rest) :=
  noFault_ite (fun _ => noFault_refused _) (noFault_ite (fun _ => noFault_next _) (noFault_next _))

/-! The invariant says nothing of the script or of the schedule. -/

theorem inv_withScript (s : State) (l : List HostAction) : Inv (s.withScript l) = Inv s := rfl

theorem inv_withSched (s : State) (l : List Agent) : Inv (s.withSched l) = Inv s := rfl

theorem noFault_hostMove {s : State} (hinv : Inv s = true) : NoFault (hostMove s) := by
  unfold hostMove
  split
  · exact noFault_next _
  · exact noFault_ite (fun _ => noFault_exec ((inv_withScript s _).trans hinv) _) (noFault_next _)
  · exact noFault_ite (fun _ => noFault_exec ((inv_withScript s _).trans hinv) _) (noFault_next _)
  · exact noFault_hostWrite
  · split
    · exact noFault_hostWrite
    · exact noFault_ite (fun _ => noFault_refused _) (noFault_next _)
  · exact noFault_next _

/-- Settles O54: no agent faults when it moves. -/
theorem noStepFaults : Obligations.NoStepFaults := by
  intro s hinv
  have hinv' : Inv (s.withSched s.sched.tail) = true := (inv_withSched s _).trans hinv
  show NoFault (step s)
  unfold step
  cases nextAgent s with
  | enc => exact noFault_encMove hinv'
  | dec => exact noFault_decMove hinv'
  | host => exact noFault_hostMove hinv'

end Sys2Proof.Machine
end

section
/-! SUPPORT. The rows of the byte table as ranges of values, the class row of a byte by its position, and whole
sequences; the statements on the byte format of spec/30_encoding.md sections 1, 2, 3 and 5. -/

namespace Sys2Proof.Machine

/-! The comparators of `DEC` when they answer no (spec/10_state.md R34). -/

theorem byteGe240_eq_false_iff (b : Byte) : byteGe240 b = false ↔ b.toNat < 240 := by
  rw [← Bool.not_eq_true, byteGe240_iff, Nat.not_le]

theorem byteGe128_eq_false_iff (b : Byte) : byteGe128 b = false ↔ b.toNat < 128 := by
  rw [← Bool.not_eq_true, byteGe128_iff, Nat.not_le]

/-! The rows of the table (spec/30_encoding.md R80) as ranges of byte values. -/

theorem inRow_singleA (b : Byte) : inRow 0x80#8 0x00#8 b = decide (b.toNat < 128) := by
  revert b; decide

theorem inRow_singleB (b : Byte) : inRow 0xC0#8 0x80#8 b = decide (128 ≤ b.toNat ∧ b.toNat < 192) := by
  revert b; decide

theorem inRow_singleC (b : Byte) : inRow 0xE0#8 0xC0#8 b = decide (192 ≤ b.toNat ∧ b.toNat < 224) := by
  revert b; decide

theorem inRow_singleD (b : Byte) : inRow 0xF0#8 0xE0#8 b = decide (224 ≤ b.toNat ∧ b.toNat < 240) := by
  revert b; decide

theorem inRow_bytePrefix (b : Byte) : inRow 0xF0#8 0xF0#8 b = decide (240 ≤ b.toNat) := by
  revert b; decide

theorem inRow_cont (b : Byte) : inRow 0x80#8 0x80#8 b = decide (128 ≤ b.toNat) := by
  revert b; decide

/-- The five rows of offset 0 cut the byte values at 128, 192, 224 and 240. -/
theorem byte_ranges (b : Byte) :
    b.toNat < 128 ∨ (128 ≤ b.toNat ∧ b.toNat < 192) ∨ (192 ≤ b.toNat ∧ b.toNat < 224) ∨
      (224 ≤ b.toNat ∧ b.toNat < 240) ∨ 240 ≤ b.toNat := by
  omega

/-! The fields of a byte give the byte back exactly in its row, and a class byte has its field. -/

theorem prefixByte_extract (b : Byte) : prefixByte (b.extractLsb' 0 4) = b ↔ 240 ≤ b.toNat := by
  revert b; decide

theorem contByte_extract (b : Byte) : contByte (b.extractLsb' 0 7) = b ↔ 128 ≤ b.toNat := by
  revert b; decide

theorem finalByte_extract (b : Byte) : finalByte (b.extractLsb' 0 7) = b ↔ b.toNat < 128 := by
  revert b; decide

theorem extract_prefixByte (n : BitVec 4) : (prefixByte n).extractLsb' 0 4 = n := by
  revert n; decide

theorem extract_contByte (p : BitVec 7) : (contByte p).extractLsb' 0 7 = p := by
  revert p; decide

theorem extract_finalByte (p : BitVec 7) : (finalByte p).extractLsb' 0 7 = p := by
  revert p; decide

/-! The class row of a byte. -/

theorem decodeFirst_of_lt_128 {b : Byte} (h : b.toNat < 128) : decodeFirst b = .byteSingleA b := by
  simp [decodeFirst, inRow_singleA, h]

theorem decodeFirst_of_lt_192 {b : Byte} (hlo : 128 ≤ b.toNat) (hhi : b.toNat < 192) :
    decodeFirst b = .byteSingleB b := by
  simp [decodeFirst, inRow_singleA, inRow_singleB, hlo, hhi]

theorem decodeFirst_of_lt_224 {b : Byte} (hlo : 192 ≤ b.toNat) (hhi : b.toNat < 224) :
    decodeFirst b = .byteSingleC b := by
  have h128 : ¬ b.toNat < 128 := by omega
  simp [decodeFirst, inRow_singleA, inRow_singleB, inRow_singleC, h128, hlo, hhi]

theorem decodeFirst_of_lt_240 {b : Byte} (hlo : 224 ≤ b.toNat) (hhi : b.toNat < 240) :
    decodeFirst b = .byteSingleD b := by
  have h128 : ¬ b.toNat < 128 := by omega
  have h192 : ¬ b.toNat < 192 := by omega
  simp [decodeFirst, inRow_singleA, inRow_singleB, inRow_singleC, inRow_singleD, h128, h192, hlo, hhi]

theorem decodeFirst_of_ge_240 {b : Byte} (h : 240 ≤ b.toNat) :
    decodeFirst b = .bytePrefix (b.extractLsb' 0 4) := by
  have h128 : ¬ b.toNat < 128 := by omega
  have h192 : ¬ b.toNat < 192 := by omega
  have h224 : ¬ b.toNat < 224 := by omega
  simp [decodeFirst, inRow_singleA, inRow_singleB, inRow_singleC, inRow_singleD, h128, h192, h224, h]

theorem decodeLater_of_lt_128 {b : Byte} (h : b.toNat < 128) :
    decodeLater b = .byteFinal (b.extractLsb' 0 7) := by
  simp [decodeLater, inRow_cont, h]

theorem decodeLater_of_ge_128 {b : Byte} (h : 128 ≤ b.toNat) :
    decodeLater b = .byteCont (b.extractLsb' 0 7) := by
  simp [decodeLater, inRow_cont, h]

/-- Every byte decodes to a well-formed row of its position whose byte it is. -/
theorem decodeByte_wellFormed (p : Params) (pos : Position) (b : Byte) :
    encode (decodeByte pos b) = [b] ∧ position (decodeByte pos b) = some pos ∧
      wellFormed p (decodeByte pos b) = true := by
  cases pos with
  | first =>
    rcases byte_ranges b with h | ⟨hlo, hhi⟩ | ⟨hlo, hhi⟩ | ⟨hlo, hhi⟩ | h
    · simp [decodeByte, decodeFirst_of_lt_128 h, encode, position, wellFormed, inRow_singleA, h]
    · simp [decodeByte, decodeFirst_of_lt_192 hlo hhi, encode, position, wellFormed, inRow_singleB, hlo, hhi]
    · simp [decodeByte, decodeFirst_of_lt_224 hlo hhi, encode, position, wellFormed, inRow_singleC, hlo, hhi]
    · simp [decodeByte, decodeFirst_of_lt_240 hlo hhi, encode, position, wellFormed, inRow_singleD, hlo, hhi]
    · simp [decodeByte, decodeFirst_of_ge_240 h, encode, position, wellFormed, prefixByte_extract, h]
  | later =>
    rcases Nat.lt_or_ge b.toNat 128 with h | h
    · simp [decodeByte, decodeLater_of_lt_128 h, encode, position, wellFormed, finalByte_extract, h]
    · simp [decodeByte, decodeLater_of_ge_128 h, encode, position, wellFormed, contByte_extract, h]

/-- A well-formed row at its position is what its byte decodes to. -/
theorem decodeByte_of_wellFormed {p : Params} {pos : Position} {i : Instr} {b : Byte}
    (hpos : position i = some pos) (henc : encode i = [b]) (hwf : wellFormed p i = true) :
    decodeByte pos b = i := by
  cases i with
  | encode | decode | encStart | encSingle | encPrefix | encCont | encFinal | decStart | decOob0 | decSingle
  | decPrefix | decOobk | decCont | decFinal => cases hpos
  | byteSingleA v =>
    cases hpos; cases henc
    exact decodeFirst_of_lt_128 (by simpa [wellFormed, inRow_singleA] using hwf)
  | byteSingleB v =>
    cases hpos; cases henc
    obtain ⟨hlo, hhi⟩ : 128 ≤ b.toNat ∧ b.toNat < 192 := by simpa [wellFormed, inRow_singleB] using hwf
    exact decodeFirst_of_lt_192 hlo hhi
  | byteSingleC v =>
    cases hpos; cases henc
    obtain ⟨hlo, hhi⟩ : 192 ≤ b.toNat ∧ b.toNat < 224 := by simpa [wellFormed, inRow_singleC] using hwf
    exact decodeFirst_of_lt_224 hlo hhi
  | byteSingleD v =>
    cases hpos; cases henc
    obtain ⟨hlo, hhi⟩ : 224 ≤ b.toNat ∧ b.toNat < 240 := by simpa [wellFormed, inRow_singleD] using hwf
    exact decodeFirst_of_lt_240 hlo hhi
  | bytePrefix n =>
    cases hpos; cases henc
    have hge : 240 ≤ (prefixByte n).toNat := by rw [prefixByte_toNat]; omega
    rw [decodeByte, decodeFirst_of_ge_240 hge, extract_prefixByte]
  | byteCont q =>
    cases hpos; cases henc
    have hge : 128 ≤ (contByte q).toNat := by rw [contByte_toNat]; omega
    rw [decodeByte, decodeLater_of_ge_128 hge, extract_contByte]
  | byteFinal q =>
    cases hpos; cases henc
    have hlt : (finalByte q).toNat < 128 := by rw [finalByte_toNat]; exact q.isLt
    rw [decodeByte, decodeLater_of_lt_128 hlt, extract_finalByte]

/-- The class row of a byte is the one well-formed row of the position that has the byte. -/
theorem decodeByte_eq_iff (p : Params) (pos : Position) (b : Byte) (i : Instr) :
    decodeByte pos b = i ↔ position i = some pos ∧ encode i = [b] ∧ wellFormed p i = true := by
  constructor
  · rintro rfl
    obtain ⟨henc, hpos, hwf⟩ := decodeByte_wellFormed p pos b
    exact ⟨hpos, henc, hwf⟩
  · rintro ⟨hpos, henc, hwf⟩
    exact decodeByte_of_wellFormed hpos henc hwf

/-- A row that stands at a position has exactly one byte. -/
theorem encode_of_position {i : Instr} {pos : Position} (hpos : position i = some pos) :
    ∃ b, encode i = [b] := by
  cases i with
  | encode | decode | encStart | encSingle | encPrefix | encCont | encFinal | decStart | decOob0 | decSingle
  | decPrefix | decOobk | decCont | decFinal => cases hpos
  | byteSingleA | byteSingleB | byteSingleC | byteSingleD | bytePrefix | byteCont | byteFinal => exact ⟨_, rfl⟩

/-- Settles O40: a row at a position has one byte, and that byte decodes to it. -/
theorem byteClassesDecodeAndEncode : Obligations.ByteClassesDecodeAndEncode := by
  refine ⟨fun p i pos rest hwf hpos => ?_, decodeByte_wellFormed⟩
  obtain ⟨b, henc⟩ := encode_of_position hpos
  rw [henc]
  exact (decode_cons_eq_ok_iff _ _ _ _ _).mpr ⟨decodeByte_of_wellFormed hpos henc hwf, rfl⟩

/-- Settles O39: the one row is what the byte decodes to; in each range of byte values the table has one match. -/
theorem classRowsPartitionTheBytes : Obligations.ClassRowsPartitionTheBytes := by
  refine ⟨fun p pos b => ⟨decodeByte pos b, (decodeByte_eq_iff p pos b _).mp rfl,
    fun i hi => ((decodeByte_eq_iff p pos b i).mpr hi).symm⟩, fun b => ⟨?firstTable, ?laterTable, ?rows⟩⟩
  case firstTable =>
    simp only [List.filter_cons, List.filter_nil, BitVec.ofNat_eq_ofNat, inRow_singleA, inRow_singleB,
      inRow_singleC, inRow_singleD, inRow_bytePrefix]
    rcases byte_ranges b with h | h | h | h | h <;> grind
  case laterTable =>
    simp only [List.filter_cons, List.filter_nil, BitVec.ofNat_eq_ofNat, inRow_singleA, inRow_cont]
    rcases Nat.lt_or_ge b.toNat 128 with h | h
    · simp [h, Nat.not_le.mpr h]
    · simp [h, Nat.not_lt.mpr h]
  case rows =>
    simp [decodeByte_eq_iff Config.resetParams, position, encode, wellFormed, prefixByte_extract,
      contByte_extract, finalByte_extract, inRow_bytePrefix, inRow_cont, inRow_singleA]

/-- Settles O42: each byte is in the row of its pattern. -/
theorem writtenOutBytesDecode : Obligations.WrittenOutBytesDecode :=
  ⟨rfl, rfl, rfl, rfl, rfl, rfl, rfl⟩

/-! Whole sequences (spec/30_encoding.md R73, R77). -/

/-- The class rows of the bytes of one sequence, each at its position. -/
def sequenceRows : List Byte → List Instr
  | [] => []
  | b :: bs => decodeFirst b :: bs.map decodeLater

theorem encode_decodeFirst (b : Byte) : encode (decodeFirst b) = [b] :=
  (decodeByte_wellFormed Config.resetParams .first b).1

theorem encode_decodeLater (b : Byte) : encode (decodeLater b) = [b] :=
  (decodeByte_wellFormed Config.resetParams .later b).1

theorem flatMap_encode_map_decodeLater (bs : List Byte) : (bs.map decodeLater).flatMap encode = bs := by
  simp [List.flatMap_map, encode_decodeLater]

/-- The rows of a sequence have its bytes. -/
theorem flatMap_encode_sequenceRows (q : List Byte) : (sequenceRows q).flatMap encode = q := by
  cases q with
  | nil => rfl
  | cons b bs =>
    rw [sequenceRows, List.flatMap_cons, encode_decodeFirst, flatMap_encode_map_decodeLater, List.singleton_append]

/-- What a chain decodes to is a terminated chain of bytes, row by row, and what stands after it. -/
theorem decodeChain_eq_ok {bytes rest : List Byte} {is : List Instr} (h : decodeChain bytes = .ok (is, rest)) :
    ∃ q, chainTerminated q = true ∧ bytes = q ++ rest ∧ is = q.map decodeLater := by
  induction bytes generalizing is with
  | nil => cases h
  | cons b bs ih =>
    rw [decodeChain] at h
    split at h
    · next hlt =>
      cases h
      exact ⟨[b], by simpa [chainTerminated, byteGe128] using hlt, rfl, rfl⟩
    · next hge =>
      split at h
      · next js after hchain =>
        cases h
        obtain ⟨q, hq, rfl, rfl⟩ := ih hchain
        refine ⟨b :: q, ?_, rfl, rfl⟩
        rw [chainTerminated, if_pos (by simpa [byteGe128] using hge), hq]
      · cases h

/-- A terminated chain decodes to its rows, whatever stands after it. -/
theorem decodeChain_append {q : List Byte} (rest : List Byte) (hq : chainTerminated q = true) :
    decodeChain (q ++ rest) = .ok (q.map decodeLater, rest) := by
  induction q with
  | nil => cases hq
  | cons b bs ih =>
    rw [chainTerminated] at hq
    split at hq
    · next hge =>
      have hnlt : ¬ b < 128#8 := by simpa [byteGe128] using hge
      simp [decodeChain, hnlt, ih hq]
    · next hlt =>
      obtain rfl := List.isEmpty_iff.mp hq
      have hlt' : b < 128#8 := by simpa [byteGe128] using hlt
      simp [decodeChain, hlt']

/-- A list of bytes decodes exactly when it begins with a terminated sequence, to the rows of that sequence. -/
theorem decodeSeq_eq_ok_iff {bytes rest : List Byte} {is : List Instr} :
    decodeSeq bytes = .ok (is, rest) ↔
      ∃ q, terminated q = true ∧ bytes = q ++ rest ∧ is = sequenceRows q := by
  constructor
  · intro h
    cases bytes with
    | nil => cases h
    | cons b bs =>
      rw [decodeSeq] at h
      split at h
      · next hlt =>
        cases h
        exact ⟨[b], by simpa [terminated, byteGe240] using .inl hlt, rfl, rfl⟩
      · next hge =>
        split at h
        · next js after hchain =>
          cases h
          obtain ⟨q, hq, rfl, rfl⟩ := decodeChain_eq_ok hchain
          refine ⟨b :: q, ?_, rfl, rfl⟩
          rw [terminated, if_pos (by simpa [byteGe240] using hge), hq]
        · cases h
  · rintro ⟨q, hq, rfl, rfl⟩
    cases q with
    | nil => cases hq
    | cons b bs =>
      rw [terminated] at hq
      split at hq
      · next hge =>
        have hnlt : ¬ b < 240#8 := by simpa [byteGe240] using hge
        simp [decodeSeq, hnlt, decodeChain_append rest hq, sequenceRows]
      · next hlt =>
        obtain rfl := List.isEmpty_iff.mp hq
        have hlt' : b < 240#8 := by simpa [byteGe240] using hlt
        simp [decodeSeq, hlt', sequenceRows]

/-- Settles O41: what decodes is a terminated sequence and the rest, and the rows of a sequence have its bytes. -/
theorem sequencesDecodeAndEncode : Obligations.SequencesDecodeAndEncode := by
  refine ⟨?decoded, ?written, ?refused⟩
  case decoded =>
    intro bytes rest is h
    obtain ⟨q, hq, rfl, rfl⟩ := decodeSeq_eq_ok_iff.mp h
    rw [flatMap_encode_sequenceRows]
    exact ⟨rfl, hq⟩
  case written =>
    intro q rest hq
    exact ⟨sequenceRows q, decodeSeq_eq_ok_iff.mpr ⟨q, hq, rfl, rfl⟩, flatMap_encode_sequenceRows q⟩
  case refused =>
    rintro bytes r h q hq ⟨rest, rfl⟩
    rw [decodeSeq_eq_ok_iff.mpr ⟨q, hq, rfl, rfl⟩] at h
    cases h

/-! The payload form of the natural value (spec/30_encoding.md R75). -/

/-- What the top bits of `m` continuation bytes from offset `k` on add to the natural value. -/
def chainBias (k m : Nat) : Nat := ((List.range m).map fun j => 128 * 2 ^ shiftOf (k + j)).sum

theorem chainBias_succ (k m : Nat) : chainBias k (m + 1) = 128 * 2 ^ shiftOf k + chainBias (k + 1) m := by
  simp [chainBias, List.range_succ_eq_map, List.map_map, Function.comp_def, Nat.add_assoc, Nat.add_comm 1]

/-- The bias of the continuation bytes of a sequence of `m + 2` bytes is what `MIN(m + 2)` has above 240. -/
theorem minValue_eq_chainBias (m : Nat) : minValue (m + 2) = 240 + chainBias 1 m := by
  have hterm (j : Nat) : 128 * 2 ^ shiftOf (1 + j) = 2 ^ (4 + 7 * (j + 1)) := by
    rw [shiftOf, show 4 + 7 * (j + 1) = 7 + (4 + 7 * (1 + j - 1)) by omega, Nat.pow_add 2 7]
  simp only [minValue, chainBias, hterm]

theorem length_pos_of_chainTerminated {bs : List Byte} (h : chainTerminated bs = true) : 0 < bs.length := by
  cases bs with
  | nil => cases h
  | cons b bs => simp

/-- In a terminated chain every byte but the last has its top bit set. -/
theorem natChain_of_chainTerminated {bs : List Byte} (k : Nat) (h : chainTerminated bs = true) :
    natChain k bs = payloadChain k bs + chainBias k (bs.length - 1) := by
  induction bs generalizing k with
  | nil => cases h
  | cons b bs ih =>
    rw [chainTerminated] at h
    split at h
    · next hge =>
      have hb : b.toNat = b.toNat % 128 + 128 := by
        have := (byteGe128_iff b).mp hge
        omega
      obtain ⟨m, hm⟩ : ∃ m, bs.length = m + 1 :=
        Nat.exists_eq_add_one.mpr (length_pos_of_chainTerminated h)
      calc natChain k (b :: bs)
          = (b.toNat % 128 + 128) * 2 ^ shiftOf k + natChain (k + 1) bs := by
            rw [natChain, shiftedByte, ← hb]
        _ = payloadChain k (b :: bs) + chainBias k (m + 1) := by
            rw [ih (k + 1) h, hm, Nat.add_sub_cancel, payloadChain, chainBias_succ, Nat.add_mul]
            omega
        _ = payloadChain k (b :: bs) + chainBias k ((b :: bs).length - 1) := by
            rw [List.length_cons, Nat.add_sub_cancel, hm]
    · next hlt =>
      obtain rfl := List.isEmpty_iff.mp h
      have hb : b.toNat % 128 = b.toNat :=
        Nat.mod_eq_of_lt ((byteGe128_eq_false_iff b).mp (Bool.eq_false_iff.mpr hlt))
      simp [natChain, payloadChain, shiftedByte, chainBias, hb]

/-- Settles O38: the first byte is 240 and its nibble; the chain is its payload and the bias of its continuation
bytes. -/
theorem payloadFormOfTheValue : Obligations.PayloadFormOfTheValue := by
  intro q hq hlen
  match q, hlen with
  | b :: c :: cs, _ =>
    rw [terminated] at hq
    split at hq
    · next hge =>
      have hb : b.toNat = 240 + b.toNat % 16 := by
        have := (byteGe240_iff b).mp hge
        omega
      have hchain := natChain_of_chainTerminated 1 hq
      have hmin := minValue_eq_chainBias cs.length
      simp only [List.length_cons, Nat.add_sub_cancel] at hchain ⊢
      rw [natOf, payloadOf, hmin, hchain]
      omega
    · cases hq

end Sys2Proof.Machine
end

section
/-! SUPPORT. What `DEC` does with a byte of a class, which step of each unit a class names, and the host's writes;
the statements on the byte classes of spec/30_encoding.md section 5 and on the host's actions of section 7. -/

namespace Sys2Proof.Machine

/-! What the byte handlers of `DEC` do when their guard holds. -/

theorem takeSingle_of_lt {b : Byte} {s : State} (hst : s.dec.st = .first) (hin : s.dec.start ≤ s.dec.last)
    (hb : b.toNat < 240) :
    takeSingle b s = .next { s with dec := { s.dec with acc := BitVec.ofNat 64 b.toNat, st := .done } } := by
  rw [BitVec.ofNat_toNat]
  exact if_pos ⟨hst, hin, (byteGe240_eq_false_iff b).mpr hb⟩

theorem takePrefix_of_ge {b : Byte} {s : State} (hst : s.dec.st = .first) (hin : s.dec.start ≤ s.dec.last)
    (hb : 240 ≤ b.toNat) :
    takePrefix b s =
      .next { s with dec := { s.dec with acc := BitVec.ofNat 64 b.toNat, off := 1, st := .accum } } := by
  rw [BitVec.ofNat_toNat]
  exact if_pos ⟨hst, hin, (byteGe240_iff b).mpr hb⟩

theorem takeCont_of_ge {b : Byte} {s : State} (hst : s.dec.st = .accum)
    (hin : s.dec.start + s.dec.off ≤ s.dec.last) (hb : 128 ≤ b.toNat) :
    takeCont b s = .next { s with
      dec := { s.dec with
        acc := (accumulate s.params.decOvf s.dec.acc b s.dec.off s.draws).1, off := s.dec.off + 1 }
      draws := (accumulate s.params.decOvf s.dec.acc b s.dec.off s.draws).2 } :=
  if_pos ⟨hst, (decInb_iff _).mpr hin, (byteGe128_iff b).mpr hb⟩

theorem takeFinal_of_lt {b : Byte} {s : State} (hst : s.dec.st = .accum)
    (hin : s.dec.start + s.dec.off ≤ s.dec.last) (hb : b.toNat < 128) :
    takeFinal b s = .next { s with
      dec := { s.dec with acc := (accumulate s.params.decOvf s.dec.acc b s.dec.off s.draws).1, st := .done }
      draws := (accumulate s.params.decOvf s.dec.acc b s.dec.off s.draws).2 } :=
  if_pos ⟨hst, (decInb_iff _).mpr hin, (byteGe128_eq_false_iff b).mpr hb⟩

/-- Under `wrap`, or where the sum fits, nothing is drawn and the sum is the one over the naturals cut to 64 bits. -/
theorem accumulate_eq_sum {o : DecOvf} {acc : Word} {b : Byte} {k draws : Nat}
    (h : o = .wrap ∨ acc.toNat + b.toNat * 2 ^ (4 + 7 * (k - 1)) < 2 ^ 64) :
    (accumulate o acc b k draws).2 = draws ∧
      (accumulate o acc b k draws).1.toNat = (acc.toNat + b.toNat * 2 ^ (4 + 7 * (k - 1))) % 2 ^ 64 := by
  rw [accumulate_exact h]
  exact ⟨rfl, BitVec.toNat_ofNat _ _⟩

/-! Each class row runs its handler on the byte with its fields. -/

/-- Settles O18: in each of the four rows the byte is below 240. -/
theorem singleRowsReturnTheByte : Obligations.SingleRowsReturnTheByte := by
  intro v s hst hin
  have hsingle (hv : v.toNat < 240) := takeSingle_of_lt (b := v) hst hin hv
  exact ⟨fun h => hsingle (by omega), fun _ h => hsingle (by omega), fun _ h => hsingle (by omega),
    fun _ h => hsingle h⟩

/-- Settles O19: the byte of the class is `240 + n`. -/
theorem prefixClassStartsTheSum : Obligations.PrefixClassStartsTheSum := by
  intro n s hst hin
  have hbyte := prefixByte_toNat n
  have htake := takePrefix_of_ge (b := prefixByte n) hst hin (by omega)
  rwa [hbyte] at htake

/-- Settles O20: the byte of the class is `128 + p`, and the sum is exact where `accumulate` is. -/
theorem contClassAddsItsByte : Obligations.ContClassAddsItsByte := by
  intro p s hst hin
  have hbyte := contByte_toNat p
  refine ⟨_, _, takeCont_of_ge (b := contByte p) hst hin (by omega), fun h => ?_⟩
  rw [← hbyte] at h ⊢
  exact accumulate_eq_sum h

/-- Settles O21: the byte of the class is `p`, and the sum is exact where `accumulate` is. -/
theorem finalClassAddsItsByteAndStops : Obligations.FinalClassAddsItsByteAndStops := by
  intro p s hst hin
  have hbyte := finalByte_toNat p
  refine ⟨_, _, takeFinal_of_lt (b := finalByte p) hst hin (by omega), fun h => ?_⟩
  rw [← hbyte] at h ⊢
  exact accumulate_eq_sum h

/-! What the class row of a byte names and runs, by the two comparisons of spec/10_state.md R34. -/

/-- A first byte below 240 is of a row that names the two `SINGLE` steps and handles the byte as a value. -/
theorem singleClass_of_lt {b : Byte} (hb : b.toNat < 240) :
    encoderStep (decodeByte .first b) = some .encSingle ∧ decoderStep (decodeByte .first b) = some .decSingle ∧
      ∀ s, exec (decodeByte .first b) s = takeSingle b s := by
  rcases byte_ranges b with h | ⟨hlo, hhi⟩ | ⟨hlo, hhi⟩ | ⟨hlo, hhi⟩ | h
  · rw [decodeByte, decodeFirst_of_lt_128 h]
    exact ⟨rfl, rfl, fun _ => rfl⟩
  · rw [decodeByte, decodeFirst_of_lt_192 hlo hhi]
    exact ⟨rfl, rfl, fun _ => rfl⟩
  · rw [decodeByte, decodeFirst_of_lt_224 hlo hhi]
    exact ⟨rfl, rfl, fun _ => rfl⟩
  · rw [decodeByte, decodeFirst_of_lt_240 hlo hhi]
    exact ⟨rfl, rfl, fun _ => rfl⟩
  · omega

/-- A first byte of 240 or more is of the row that names the two `PREFIX` steps. -/
theorem prefixClass_of_ge {b : Byte} (hb : 240 ≤ b.toNat) :
    encoderStep (decodeByte .first b) = some .encPrefix ∧ decoderStep (decodeByte .first b) = some .decPrefix ∧
      ∀ s, exec (decodeByte .first b) s = takePrefix b s := by
  rw [decodeByte, decodeFirst_of_ge_240 hb]
  exact ⟨rfl, rfl, fun s => congrArg (takePrefix · s) ((prefixByte_extract b).mpr hb)⟩

/-- A later byte of 128 or more is of the row that names the two `CONT` steps. -/
theorem contClass_of_ge {b : Byte} (hb : 128 ≤ b.toNat) :
    encoderStep (decodeByte .later b) = some .encCont ∧ decoderStep (decodeByte .later b) = some .decCont ∧
      ∀ s, exec (decodeByte .later b) s = takeCont b s := by
  rw [decodeByte, decodeLater_of_ge_128 hb]
  exact ⟨rfl, rfl, fun s => congrArg (takeCont · s) ((contByte_extract b).mpr hb)⟩

/-- A later byte below 128 is of the row that names the two `FINAL` steps. -/
theorem finalClass_of_lt {b : Byte} (hb : b.toNat < 128) :
    encoderStep (decodeByte .later b) = some .encFinal ∧ decoderStep (decodeByte .later b) = some .decFinal ∧
      ∀ s, exec (decodeByte .later b) s = takeFinal b s := by
  rw [decodeByte, decodeLater_of_lt_128 hb]
  exact ⟨rfl, rfl, fun s => congrArg (takeFinal · s) ((finalByte_extract b).mpr hb)⟩

/-- Settles O7: the guard of the step puts the byte on the side of 240, or of 128, that its class is on. -/
theorem encoderStepsEmitTheirClass : Obligations.EncoderStepsEmitTheirClass := by
  intro s t j hj h
  simp only [List.mem_cons, List.not_mem_nil, or_false] at hj
  rcases hj with rfl | rfl | rfl | rfl
  · obtain ⟨hst, hw, rfl⟩ := execEncSingle_next h
    have hlt : s.enc.w.toNat < 240 := by rwa [← Bool.not_eq_true, encGe240_iff, Nat.not_le] at hw
    refine ⟨singleOf s.enc.w, by simp [hst], ?_⟩
    rw [if_pos hst]
    exact (singleClass_of_lt (by rw [singleOf_toNat]; omega)).1
  · obtain ⟨hst, -, rfl⟩ := execEncPrefix_next h
    refine ⟨prefixOf s.enc.w, by simp [hst], ?_⟩
    rw [if_pos hst]
    exact (prefixClass_of_ge (by rw [prefixOf_toNat]; omega)).1
  · obtain ⟨hst, -, hi, rfl⟩ := execEncCont_next h
    have hne : s.enc.st ≠ .first := by simp [hst]
    refine ⟨contOf s.enc.w, by simp [hne, hi], ?_⟩
    rw [if_neg hne]
    exact (contClass_of_ge (by rw [contOf_toNat]; omega)).1
  · obtain ⟨hst, hw, hi, rfl⟩ := execEncFinal_next h
    have hne : s.enc.st ≠ .first := by simp [hst]
    have hlt : s.enc.w.toNat < 128 := by rwa [← Bool.not_eq_true, encGe128_iff, Nat.not_le] at hw
    refine ⟨finalOf s.enc.w, by simp [hne, hi], ?_⟩
    rw [if_neg hne]
    exact (finalClass_of_lt (by rw [finalOf_toNat]; omega)).1

/-- All `decFetchAt` can do: it classifies the byte of `MEM` at an address of `MEM`. -/
theorem decFetchAt_eq_ok {s : State} {pos : Position} {a : Nat} {i : Instr}
    (h : decFetchAt s pos a = .ok (some i)) : a < 2 ^ s.params.aw ∧ decodeByte pos (memRead s.mem a) = i := by
  by_cases ha : a < 2 ^ s.params.aw
  · rw [decFetchAt_of_lt ha] at h
    cases h
    exact ⟨ha, rfl⟩
  · simp [decFetchAt, memByte?, addressFits, ha] at h

/-- In bounds, a class that handles the byte read does what the step does that it names and that reads that byte. -/
theorem exec_class_eq_step {s : State} {i j k : Instr} {st : DecSt} {a : Nat} {handle : Byte → State → Answer}
    (hst : s.dec.st = st) (hin : a ≤ s.dec.last) (ha : a < 2 ^ s.params.aw)
    (hstep : decoderStep i = some k) (hclass : exec i s = handle (memRead s.mem a) s)
    (hread : exec k s = decReadByte st a s handle) (hj : decoderStep i = some j) : exec i s = exec j s := by
  cases hstep.symm.trans hj
  rw [hclass, hread, decReadByte_of_inb hst hin ha]

/-- Settles O22: in bounds the step reads the byte that was fetched; out of bounds the fetch is an `OOB` step,
which names none. -/
theorem byteClassesDoWhatTheirDecoderStepDoes : Obligations.ByteClassesDoWhatTheirDecoderStepDoes := by
  intro s i j hfetch hj
  cases hst : s.dec.st with
  | idle | done => simp [decFetch, hst] at hfetch
  | first =>
    rcases Nat.lt_or_ge s.dec.last s.dec.start with hout | hin
    · rw [decFetch_first_of_oob hst hout] at hfetch
      cases hfetch
      cases hj
    · rw [decFetch_first_of_inb hst hin] at hfetch
      obtain ⟨ha, rfl⟩ := decFetchAt_eq_ok hfetch
      rcases Nat.lt_or_ge (memRead s.mem s.dec.start).toNat 240 with hb | hb
      · obtain ⟨-, hstep, hclass⟩ := singleClass_of_lt hb
        exact exec_class_eq_step hst hin ha hstep (hclass s) rfl hj
      · obtain ⟨-, hstep, hclass⟩ := prefixClass_of_ge hb
        exact exec_class_eq_step hst hin ha hstep (hclass s) rfl hj
  | accum =>
    rcases Nat.lt_or_ge s.dec.last (s.dec.start + s.dec.off) with hout | hin
    · rw [decFetch_accum_of_oob hst hout] at hfetch
      cases hfetch
      cases hj
    · rw [decFetch_accum_of_inb hst hin] at hfetch
      obtain ⟨ha, rfl⟩ := decFetchAt_eq_ok hfetch
      rcases Nat.lt_or_ge (memRead s.mem (s.dec.start + s.dec.off)).toNat 128 with hb | hb
      · obtain ⟨-, hstep, hclass⟩ := finalClass_of_lt hb
        exact exec_class_eq_step hst hin ha hstep (hclass s) rfl hj
      · obtain ⟨-, hstep, hclass⟩ := contClass_of_ge hb
        exact exec_class_eq_step hst hin ha hstep (hclass s) rfl hj

/-! The host's writes (spec/30_encoding.md R82). -/

/-- Outside the addresses written, `MEM` reads as before. -/
theorem memRead_memWriteList_outside {p : Params} {m : Memory} {a : Nat} {bytes : List Byte}
    (hwf : m.wf p = true) (hfit : a + bytes.length ≤ 2 ^ p.aw) {x : Nat} (hx : x < a ∨ a + bytes.length ≤ x) :
    memRead (memWriteList m a bytes) x = memRead m x := by
  induction bytes generalizing m a with
  | nil => rfl
  | cons b bs ih =>
    rw [List.length_cons] at hfit hx
    have hne : x ≠ a := by omega
    rw [memWriteList, ih (wf_memWrite b hwf (by omega)) (by omega) (by omega), memRead_memWrite hwf, if_neg hne]

/-- The bytes written are read back. -/
theorem memSlice_memWriteList {p : Params} {m : Memory} {a : Nat} {bytes : List Byte}
    (hwf : m.wf p = true) (hfit : a + bytes.length ≤ 2 ^ p.aw) :
    memSlice (memWriteList m a bytes) a bytes.length = bytes := by
  induction bytes generalizing m a with
  | nil => rfl
  | cons b bs ih =>
    rw [List.length_cons] at hfit ⊢
    have hwf' := wf_memWrite b hwf (show a < 2 ^ p.aw by omega)
    rw [memWriteList, memSlice_succ, ih hwf' (by omega),
      memRead_memWriteList_outside hwf' (by omega) (.inl (Nat.lt_succ_self a)), memRead_memWrite hwf, if_pos rfl]

/-- A host write inside `MEM` lands when `DEC` is at rest or no byte of it lies in `START..END`, and waits while a
decode runs over one of its bytes. -/
theorem hostWrite_lands_or_waits {s : State} {a : Nat} {bytes : List Byte} {rest : List HostAction}
    (hfit : a + bytes.length ≤ 2 ^ s.params.aw) :
    (((s.dec.st = .idle ∨ s.dec.st = .done) ∨
        ∀ x, a ≤ x → x < a + bytes.length → ¬ (s.dec.start ≤ x ∧ x ≤ s.dec.last)) →
      hostWrite s a bytes rest = .next { s with mem := memWriteList s.mem a bytes, script := rest }) ∧
    ((s.dec.st = .first ∨ s.dec.st = .accum) →
      (∃ x, a ≤ x ∧ x < a + bytes.length ∧ s.dec.start ≤ x ∧ x ≤ s.dec.last) →
      hostWrite s a bytes rest = .next s) := by
  rw [hostWrite_of_fits hfit]
  refine ⟨fun hmay => if_pos ((hostMayWrite_iff _ _ _).mpr hmay), ?_⟩
  rintro hbusy ⟨x, hax, hxlt, hstart, hlast⟩
  refine if_neg fun hmay => ?_
  rcases (hostMayWrite_iff _ _ _).mp hmay with hrest | hnone
  · rcases hbusy with hst | hst <;> simp [hst] at hrest
  · exact hnone x hax hxlt ⟨hstart, hlast⟩

/-- Settles O32: `SET` is a host write of its bytes. -/
theorem hostWritePlacesTheBytes : Obligations.HostWritePlacesTheBytes := by
  refine ⟨fun p m a bytes hwf hfit => ⟨wf_memWriteList hwf hfit, memSlice_memWriteList hwf hfit,
    fun x hx => memRead_memWriteList_outside hwf hfit hx⟩, ?_⟩
  intro a bytes rest s hscript hfit
  have hmove : agentMove .host s = hostWrite s a bytes rest := by simp [agentMove, hostMove, hscript]
  rw [hmove]
  exact hostWrite_lands_or_waits hfit

theorem hostMove_cpy_of_done {s : State} {a : Nat} {rest : List HostAction} (hscript : s.script = .cpy a :: rest)
    (hst : s.enc.st = .done) :
    agentMove .host s = hostWrite s a (s.enc.obuf.toList.take s.enc.idx.toNat) rest := by
  simp [agentMove, hostMove, hscript, encResponse?, hst]

theorem hostMove_cpy_of_ne_done {s : State} {a : Nat} {rest : List HostAction}
    (hscript : s.script = .cpy a :: rest) (hst : s.enc.st ≠ .done) :
    agentMove .host s = if encAtRest s.enc then .refused .responseNotValid else .next s := by
  simp [agentMove, hostMove, hscript, encResponse?, hst]

/-- Settles O59: with a response `CPY` is a host write of `OBUF[0..LEN − 1]`; without one the encoder's state
decides. -/
theorem hostCopyTakesTheResponse : Obligations.HostCopyTakesTheResponse := by
  refine ⟨?response, ?busy, ?idle⟩
  case response =>
    rintro a rest s _ hscript hst rfl hfit
    rw [hostMove_cpy_of_done hscript hst]
    exact hostWrite_lands_or_waits hfit
  case busy =>
    intro a rest s hscript hbusy
    rcases hbusy with hst | hst <;> simp [hostMove_cpy_of_ne_done hscript, encAtRest, hst]
  case idle =>
    intro a rest s hscript hst
    simp [hostMove_cpy_of_ne_done hscript, encAtRest, hst]

end Sys2Proof.Machine
end

section
/-! SUPPORT. Each step of `ENC` as an equation in natural numbers, the run of its steps and the operation
`ENCODE`; the statements of spec/40_encoder.md sections 2 to 4. -/

namespace Sys2Proof.Machine

/-! The comparators of `ENC` when they answer no (spec/10_state.md R34). -/

theorem encGe240_eq_false_iff (e : Enc) : encGe240 e = false ↔ e.w.toNat < 240 := by
  rw [← Bool.not_eq_true, encGe240_iff, Nat.not_le]

theorem encGe128_eq_false_iff (e : Enc) : encGe128 e = false ↔ e.w.toNat < 128 := by
  rw [← Bool.not_eq_true, encGe128_iff, Nat.not_le]

/-! The bytes and the working values of the steps, in the terms of `ENC_SEQ` (spec/40_encoder.md R91). -/

theorem singleOf_eq_ofNat (w : Word) : singleOf w = BitVec.ofNat 8 w.toNat :=
  BitVec.eq_of_toNat_eq (by rw [singleOf_toNat, BitVec.toNat_ofNat])

theorem finalOf_eq_ofNat (w : Word) : finalOf w = BitVec.ofNat 8 w.toNat :=
  BitVec.eq_of_toNat_eq (by rw [finalOf_toNat, BitVec.toNat_ofNat])

theorem prefixOf_eq_ofNat (w : Word) : prefixOf w = BitVec.ofNat 8 (240 + w.toNat % 16) :=
  BitVec.eq_of_toNat_eq (by rw [prefixOf_toNat, BitVec.toNat_ofNat]; omega)

theorem contOf_eq_ofNat (w : Word) : contOf w = BitVec.ofNat 8 (128 + w.toNat % 128) :=
  BitVec.eq_of_toNat_eq (by rw [contOf_toNat, BitVec.toNat_ofNat]; omega)

theorem prefixOf_eq_prefixByte (w : Word) : prefixOf w = prefixByte (BitVec.ofNat 4 w.toNat) :=
  BitVec.eq_of_toNat_eq (by rw [prefixOf_toNat, prefixByte_toNat, BitVec.toNat_ofNat])

theorem contOf_eq_contByte (w : Word) : contOf w = contByte (BitVec.ofNat 7 w.toNat) :=
  BitVec.eq_of_toNat_eq (by rw [contOf_toNat, contByte_toNat, BitVec.toNat_ofNat])

theorem workAfterPrefix_eq_ofNat {w : Word} (hw : 240 ≤ w.toNat) :
    workAfterPrefix w = BitVec.ofNat 64 ((w.toNat - 240) / 16) := by
  rw [← workAfterPrefix_toNat hw, BitVec.ofNat_toNat, BitVec.setWidth_eq]

theorem workAfterCont_eq_ofNat {w : Word} (hw : 128 ≤ w.toNat) :
    workAfterCont w = BitVec.ofNat 64 ((w.toNat - 128) / 128) := by
  rw [← workAfterCont_toNat hw, BitVec.ofNat_toNat, BitVec.setWidth_eq]

/-! What each row of `ENC` does when its guard holds, and that it is refused when the guard is false. -/

section
variable {s : State}

theorem exec_encStart_of_rest (v : Word) (hrest : s.enc.st = .idle ∨ s.enc.st = .done) :
    exec (.encStart v) s = .next (s.withEnc { s.enc with w := v, idx := 0, st := .first }) :=
  if_pos ((encAtRest_iff _).mpr hrest)

theorem exec_encSingle_of_lt (hst : s.enc.st = .first) (hw : s.enc.w.toNat < 240) :
    exec .encSingle s = .next (s.withEnc
      { st := .done, w := s.enc.w, idx := 1, obuf := s.enc.obuf.set 0 (singleOf s.enc.w) }) :=
  (if_pos ⟨hst, (encGe240_eq_false_iff _).mpr hw⟩).trans (encEmit_of_lt (by decide) _ _ _ _)

theorem exec_encPrefix_of_ge (hst : s.enc.st = .first) (hw : 240 ≤ s.enc.w.toNat) :
    exec .encPrefix s = .next (s.withEnc
      { st := .chain, w := workAfterPrefix s.enc.w, idx := 1,
        obuf := s.enc.obuf.set 0 (prefixOf s.enc.w) }) :=
  (if_pos ⟨hst, (encGe240_iff _).mpr hw⟩).trans (encEmit_of_lt (by decide) _ _ _ _)

theorem exec_encCont_of_ge (hi : s.enc.idx.toNat < 10) (hst : s.enc.st = .chain) (hw : 128 ≤ s.enc.w.toNat) :
    exec .encCont s = .next (s.withEnc
      { st := .chain, w := workAfterCont s.enc.w, idx := s.enc.idx + 1,
        obuf := s.enc.obuf.set s.enc.idx.toNat (contOf s.enc.w) hi }) :=
  (if_pos ⟨hst, (encGe128_iff _).mpr hw⟩).trans (encEmit_of_lt hi _ _ _ _)

theorem exec_encFinal_of_lt (hi : s.enc.idx.toNat < 10) (hst : s.enc.st = .chain) (hw : s.enc.w.toNat < 128) :
    exec .encFinal s = .next (s.withEnc
      { st := .done, w := s.enc.w, idx := s.enc.idx + 1,
        obuf := s.enc.obuf.set s.enc.idx.toNat (finalOf s.enc.w) hi }) :=
  (if_pos ⟨hst, (encGe128_eq_false_iff _).mpr hw⟩).trans (encEmit_of_lt hi _ _ _ _)

theorem exec_encSingle_refused (h : ¬ (s.enc.st = .first ∧ s.enc.w.toNat < 240)) :
    exec .encSingle s = .refused .stepNotEnabled :=
  if_neg (by rwa [encGe240_eq_false_iff])

theorem exec_encPrefix_refused (h : ¬ (s.enc.st = .first ∧ 240 ≤ s.enc.w.toNat)) :
    exec .encPrefix s = .refused .stepNotEnabled :=
  if_neg (by rwa [encGe240_iff])

theorem exec_encCont_refused (h : ¬ (s.enc.st = .chain ∧ 128 ≤ s.enc.w.toNat)) :
    exec .encCont s = .refused .stepNotEnabled :=
  if_neg (by rwa [encGe128_iff])

theorem exec_encFinal_refused (h : ¬ (s.enc.st = .chain ∧ s.enc.w.toNat < 128)) :
    exec .encFinal s = .refused .stepNotEnabled :=
  if_neg (by rwa [encGe128_eq_false_iff])

end

/-- Settles O1: a busy unit is not at rest. -/
theorem encStartLatchesTheValue : Obligations.EncStartLatchesTheValue := by
  refine fun v s => ⟨exec_encStart_of_rest v, fun hbusy => if_neg fun hrest => ?_⟩
  rw [encAtRest_iff] at hrest
  rcases hbusy with hst | hst <;> simp [hst] at hrest

/-- Settles O2: the low byte of the value is the value. -/
theorem encSingleEmitsTheValue : Obligations.EncSingleEmitsTheValue := by
  refine fun s => ⟨fun hst hw => ?_, exec_encSingle_refused⟩
  rw [exec_encSingle_of_lt hst hw, singleOf_eq_ofNat]
  rfl

/-- Settles O3: the bound is that of a 64-bit value. -/
theorem encPrefixEmitsTheLowNibble : Obligations.EncPrefixEmitsTheLowNibble := by
  refine fun s => ⟨fun hst hw => ⟨by omega, ?_⟩, exec_encPrefix_refused⟩
  rw [exec_encPrefix_of_ge hst hw, prefixOf_eq_ofNat, workAfterPrefix_eq_ofNat hw]
  rfl

/-- Settles O4: the working value cannot wrap, since the guard makes the subtraction exact. -/
theorem encContEmitsTheLowSevenBits : Obligations.EncContEmitsTheLowSevenBits := by
  refine fun s => ⟨fun hi hst hw => ⟨by omega, ?_⟩, exec_encCont_refused⟩
  rw [exec_encCont_of_ge hi hst hw, contOf_eq_ofNat, workAfterCont_eq_ofNat hw]
  rfl

/-- Settles O5: a working value below 128 fits a byte. -/
theorem encFinalEmitsTheRest : Obligations.EncFinalEmitsTheRest := by
  refine fun s => ⟨fun hi hst hw => ⟨Nat.mod_eq_of_lt (by omega), ?_⟩, exec_encFinal_refused⟩
  rw [exec_encFinal_of_lt hi hst hw, finalOf_eq_ofNat]
  rfl

/-! The step that `ENC` selects (spec/40_encoder.md R92). -/

theorem encEnabled_first_of_lt {e : Enc} (hst : e.st = .first) (hw : e.w.toNat < 240) :
    encEnabled e = some .encSingle := by
  simp [encEnabled, hst, (encGe240_eq_false_iff e).mpr hw]

theorem encEnabled_first_of_ge {e : Enc} (hst : e.st = .first) (hw : 240 ≤ e.w.toNat) :
    encEnabled e = some .encPrefix := by
  simp [encEnabled, hst, (encGe240_iff e).mpr hw]

theorem encEnabled_chain_of_lt {e : Enc} (hst : e.st = .chain) (hw : e.w.toNat < 128) :
    encEnabled e = some .encFinal := by
  simp [encEnabled, hst, (encGe128_eq_false_iff e).mpr hw]

theorem encEnabled_chain_of_ge {e : Enc} (hst : e.st = .chain) (hw : 128 ≤ e.w.toNat) :
    encEnabled e = some .encCont := by
  simp [encEnabled, hst, (encGe128_iff e).mpr hw]

/-- Settles O6: the edges are what the steps can do; while `ENC` is busy the state and one comparison leave one
guard true. -/
theorem encoderGraphHasOneEnabledStep : Obligations.EncoderGraphHasOneEnabledStep := by
  refine ⟨?start, ?single, ?pfx, ?cont, ?final, ?enabled⟩
  case start =>
    intro s t v h
    obtain ⟨hrest, rfl⟩ := execEncStart_next h
    exact ⟨hrest, rfl⟩
  case single =>
    intro s t h
    obtain ⟨hst, hw, rfl⟩ := execEncSingle_next h
    exact ⟨hst, (encGe240_eq_false_iff _).mp hw, rfl⟩
  case pfx =>
    intro s t h
    obtain ⟨hst, hw, rfl⟩ := execEncPrefix_next h
    exact ⟨hst, (encGe240_iff _).mp hw, rfl⟩
  case cont =>
    intro s t h
    obtain ⟨hst, hw, -, rfl⟩ := execEncCont_next h
    exact ⟨hst, (encGe128_iff _).mp hw, rfl⟩
  case final =>
    intro s t h
    obtain ⟨hst, hw, -, rfl⟩ := execEncFinal_next h
    exact ⟨hst, (encGe128_eq_false_iff _).mp hw, rfl⟩
  case enabled =>
    intro s hbusy hi
    rcases hbusy with hst | hst
    · have hcont := exec_encCont_refused (s := s) (by simp [hst])
      have hfinal := exec_encFinal_refused (s := s) (by simp [hst])
      rcases Nat.lt_or_ge s.enc.w.toNat 240 with hw | hw
      · have hpfx := exec_encPrefix_refused (s := s) (by omega)
        exact ⟨.encSingle, by simp, encEnabled_first_of_lt hst hw, ⟨_, exec_encSingle_of_lt hst hw⟩,
          by simp [hpfx, hcont, hfinal]⟩
      · have hsingle := exec_encSingle_refused (s := s) (by omega)
        exact ⟨.encPrefix, by simp, encEnabled_first_of_ge hst hw, ⟨_, exec_encPrefix_of_ge hst hw⟩,
          by simp [hsingle, hcont, hfinal]⟩
    · have hsingle := exec_encSingle_refused (s := s) (by simp [hst])
      have hpfx := exec_encPrefix_refused (s := s) (by simp [hst])
      rcases Nat.lt_or_ge s.enc.w.toNat 128 with hw | hw
      · have hcont := exec_encCont_refused (s := s) (by omega)
        exact ⟨.encFinal, by simp, encEnabled_chain_of_lt hst hw, ⟨_, exec_encFinal_of_lt hi hst hw⟩,
          by simp [hsingle, hpfx, hcont]⟩
      · have hfinal := exec_encFinal_refused (s := s) (by omega)
        exact ⟨.encCont, by simp, encEnabled_chain_of_ge hst hw, ⟨_, exec_encCont_of_ge hi hst hw⟩,
          by simp [hsingle, hpfx, hfinal]⟩

/-! The registers of `ENC` when an operation has ended. -/

/-- `ENC` in `DONE` after the bytes `bs` from the index of `e` on, with the last working value `w`. -/
def Enc.deliver (e : Enc) (bs : List Byte) (w : Nat) : Enc :=
  { st := .done
    w := BitVec.ofNat 64 w
    idx := BitVec.ofNat 4 (e.idx.toNat + bs.length)
    obuf := obufWrite e.obuf e.idx.toNat bs }

/-- The index does not wrap inside `OBUF`. -/
theorem toNat_idx_succ {i : BitVec 4} (hi : i.toNat < 10) : (i + 1).toNat = i.toNat + 1 := by
  rw [BitVec.toNat_add]
  exact Nat.mod_eq_of_lt (by simp; omega)

theorem setIfInBounds_eq_set {o : Vector Byte 10} {i : Nat} {b : Byte} (hi : i < 10) :
    o.setIfInBounds i b = o.set i b hi := by
  ext j hj
  rw [Vector.getElem_setIfInBounds, Vector.getElem_set]

/-- The state and the working value are no part of what `deliver` keeps, so a byte step may write them. -/
theorem Enc.deliver_cons {e : Enc} (hi : e.idx.toNat < 10) (b : Byte) (bs : List Byte) (w : Nat) (st : EncSt)
    (x : Word) :
    e.deliver (b :: bs) w =
      Enc.deliver { st := st, w := x, idx := e.idx + 1, obuf := e.obuf.set e.idx.toNat b hi } bs w := by
  have hlen : e.idx.toNat + (bs.length + 1) = e.idx.toNat + 1 + bs.length := by omega
  simp only [Enc.deliver, toNat_idx_succ hi, obufWrite, List.length_cons, hlen,
    setIfInBounds_eq_set hi]

theorem Enc.deliver_singleton {e : Enc} (hi : e.idx.toNat < 10) (b : Byte) :
    e.deliver [b] e.w.toNat =
      { st := .done, w := e.w, idx := e.idx + 1, obuf := e.obuf.set e.idx.toNat b hi } := by
  rw [Enc.deliver_cons hi b [] _ .done e.w]
  simp only [Enc.deliver, obufWrite, List.length_nil, Nat.add_zero, BitVec.ofNat_toNat, BitVec.setWidth_eq]

/-- `ENCODE` at rest is the delivery of `ENC_SEQ(VALUE)` by the unit that `ENC.START` leaves. -/
theorem exec_encode_of_rest {s : State} (v : Word) (hrest : s.enc.st = .idle ∨ s.enc.st = .done) :
    exec (.encode v) s = .next (s.withEnc
      (Enc.deliver { s.enc with w := v, idx := 0, st := .first } (encSeq v.toNat) (encLastWork v.toNat))) := by
  simp [exec, execEncode, (encAtRest_iff _).mpr hrest, Enc.deliver]

theorem encSeq_length_pos (v : Nat) : 1 ≤ (encSeq v).length := by
  unfold encSeq
  split <;> simp

/-- A delivery from index 0 leaves `OBUF` as it was past the bytes delivered. -/
theorem Enc.deliver_obuf_get {e : Enc} (hidx : e.idx = 0) (bs : List Byte) (w : Nat) {i : Nat} (hi : i < 10) :
    (e.deliver bs w).obuf[i]? = if i < bs.length then bs[i]? else e.obuf[i]? := by
  simpa [Enc.deliver, hidx] using obufWrite_get e.obuf 0 bs i hi

/-- Settles O8: what `ENCODE` writes is a delivery from index 0, which `OBUF` has room for. -/
theorem encodeDeliversTheSequence : Obligations.EncodeDeliversTheSequence := by
  intro v s hrest
  obtain ⟨t, ht, hresp⟩ := exec_encode_response v hrest
  obtain ⟨-, rfl⟩ := execEncode_next ht
  exact ⟨_, _, ht, encSeq_length_pos _, encSeq_length_le v.isLt,
    fun i hi => by simpa using obufWrite_get s.enc.obuf 0 (encSeq v.toNat) i hi, hresp⟩

/-! The run of the steps (spec/40_encoder.md R99). -/

theorem encMove_of_enabled {s : State} {i : Instr} (hen : encEnabled s.enc = some i) :
    agentMove .enc s = exec i s := by
  simp [agentMove, encMove, hen]

/-- In `DONE` the unit stays as it is. -/
theorem agentRun_enc_of_done {s : State} (hst : s.enc.st = .done) (n : Nat) : agentRun .enc n s = .next s := by
  induction n with
  | zero => rfl
  | succ n ih =>
    have hmove : agentMove .enc s = .next s := by simp [agentMove, encMove, encEnabled, hst]
    rw [agentRun_succ hmove, ih]

/-- With less than 128 left the run from `CHAIN` is the final byte, after which the unit stays. -/
theorem agentRun_enc_final {s : State} {n : Nat} (hst : s.enc.st = .chain) (hi : s.enc.idx.toNat < 10)
    (hw : s.enc.w.toNat < 128) (hn : 1 ≤ n) :
    agentRun .enc n s = .next (s.withEnc
      (s.enc.deliver [BitVec.ofNat 8 s.enc.w.toNat] s.enc.w.toNat)) := by
  obtain ⟨n, rfl⟩ := Nat.exists_eq_add_of_le' hn
  have hmove := (encMove_of_enabled (encEnabled_chain_of_lt hst hw)).trans (exec_encFinal_of_lt hi hst hw)
  rw [agentRun_succ hmove, agentRun_enc_of_done rfl, Enc.deliver_singleton hi, finalOf_eq_ofNat]

/-- From `CHAIN` the run delivers the bytes of the loop of `ENC_SEQ`, one per move, if they fit `OBUF` and the fuel
of the loop is enough for the working value. -/
theorem agentRun_enc_chain {fuel : Nat} {s : State} {n : Nat} (hst : s.enc.st = .chain)
    (hfuel : s.enc.w.toNat < 128 ^ (fuel + 1))
    (hfit : s.enc.idx.toNat + (encChain fuel s.enc.w.toNat).length ≤ 10)
    (hn : (encChain fuel s.enc.w.toNat).length ≤ n) :
    agentRun .enc n s = .next (s.withEnc
      (s.enc.deliver (encChain fuel s.enc.w.toNat) (encChainLast fuel s.enc.w.toNat))) := by
  induction fuel generalizing s n with
  | zero => exact agentRun_enc_final hst (by simpa [encChain] using hfit) (by simpa using hfuel) hn
  | succ fuel ih =>
    rcases Nat.lt_or_ge s.enc.w.toNat 128 with hw | hw
    · have hchain : encChain (fuel + 1) s.enc.w.toNat = [BitVec.ofNat 8 s.enc.w.toNat] :=
        if_neg (Nat.not_le.mpr hw)
      have hlast : encChainLast (fuel + 1) s.enc.w.toNat = s.enc.w.toNat := if_neg (Nat.not_le.mpr hw)
      rw [hchain] at hfit hn ⊢
      rw [hlast]
      exact agentRun_enc_final hst (Nat.lt_of_succ_le hfit) hw hn
    · have hwork : (s.enc.w.toNat - 128) / 2 ^ 7 = (workAfterCont s.enc.w).toNat :=
        (workAfterCont_toNat hw).symm
      have hchain : encChain (fuel + 1) s.enc.w.toNat =
          contOf s.enc.w :: encChain fuel (workAfterCont s.enc.w).toNat := by
        rw [encChain, if_pos hw, hwork, contOf_eq_contByte]
      have hlast : encChainLast (fuel + 1) s.enc.w.toNat = encChainLast fuel (workAfterCont s.enc.w).toNat := by
        rw [encChainLast, if_pos hw, hwork]
      rw [hchain, List.length_cons] at hfit hn
      have hi : s.enc.idx.toNat < 10 := by omega
      have hmove := (encMove_of_enabled (encEnabled_chain_of_ge hst hw)).trans (exec_encCont_of_ge hi hst hw)
      have hfuel' : (workAfterCont s.enc.w).toNat < 128 ^ (fuel + 1) := by
        rw [pow_succ] at hfuel
        rw [workAfterCont_toNat hw]
        omega
      obtain ⟨n, rfl⟩ := Nat.exists_eq_add_of_le' (Nat.one_le_of_lt hn)
      rw [agentRun_succ hmove, ih rfl hfuel' (by simp only [State.withEnc_enc, toNat_idx_succ hi]; omega)
        (Nat.le_of_succ_le_succ hn), hchain, hlast, Enc.deliver_cons hi]
      rfl

/-- From `FIRST` at index 0 the run delivers `ENC_SEQ` of the value latched, one byte per move. -/
theorem agentRun_enc_first {s : State} {n : Nat} (hst : s.enc.st = .first) (hidx : s.enc.idx = 0)
    (hn : (encSeq s.enc.w.toNat).length ≤ n) :
    agentRun .enc n s = .next (s.withEnc
      (s.enc.deliver (encSeq s.enc.w.toNat) (encLastWork s.enc.w.toNat))) := by
  have hi : s.enc.idx.toNat < 10 := by simp [hidx]
  have hlen := encSeq_length_le s.enc.w.isLt
  obtain ⟨n, rfl⟩ := Nat.exists_eq_add_of_le' ((encSeq_length_pos _).trans hn)
  rcases Nat.lt_or_ge s.enc.w.toNat 240 with hw | hw
  · have hseq : encSeq s.enc.w.toNat = [singleOf s.enc.w] := by rw [encSeq, if_pos hw, singleOf_eq_ofNat]
    have hlast : encLastWork s.enc.w.toNat = s.enc.w.toNat := if_pos hw
    have hmove := (encMove_of_enabled (encEnabled_first_of_lt hst hw)).trans (exec_encSingle_of_lt hst hw)
    rw [agentRun_succ hmove, agentRun_enc_of_done rfl, hseq, hlast, Enc.deliver_singleton hi]
    simp only [hidx]
    rfl
  · have hnlt : ¬ s.enc.w.toNat < 240 := Nat.not_lt.mpr hw
    have hwork : (s.enc.w.toNat - 240) / 2 ^ 4 = (workAfterPrefix s.enc.w).toNat :=
      (workAfterPrefix_toNat hw).symm
    have hseq : encSeq s.enc.w.toNat = prefixOf s.enc.w :: encChain 64 (workAfterPrefix s.enc.w).toNat := by
      rw [encSeq, if_neg hnlt, hwork, prefixOf_eq_prefixByte]
    have hlast : encLastWork s.enc.w.toNat = encChainLast 64 (workAfterPrefix s.enc.w).toNat := by
      rw [encLastWork, if_neg hnlt, hwork]
    have hmove := (encMove_of_enabled (encEnabled_first_of_ge hst hw)).trans (exec_encPrefix_of_ge hst hw)
    rw [hseq, List.length_cons] at hlen hn
    have hfuel : (workAfterPrefix s.enc.w).toNat < 128 ^ (64 + 1) :=
      (workAfterPrefix s.enc.w).isLt.trans (by decide)
    rw [agentRun_succ hmove, agentRun_enc_chain rfl hfuel (by rw [Nat.add_comm]; exact hlen)
      (Nat.le_of_succ_le_succ hn), hseq, hlast, Enc.deliver_cons hi]
    simp only [hidx]
    rfl

/-- Settles O9: the run from `ENC.START` delivers `ENC_SEQ(VALUE)`, as the operation does. -/
theorem encodeIsTheRunOfItsSteps : Obligations.EncodeIsTheRunOfItsSteps := by
  intro v s hrest
  have hlen : (encSeq v.toNat).length < 16 := by have := encSeq_length_le v.isLt; omega
  refine ⟨_, _, exec_encStart_of_rest v hrest, exec_encode_of_rest v hrest,
    fun n hn => agentRun_enc_first rfl rfl hn, rfl, ?_, fun i hi => Enc.deliver_obuf_get rfl _ _ hi⟩
  simp [encLen?, Enc.deliver, Nat.mod_eq_of_lt hlen]

end Sys2Proof.Machine
end

section
/-! SUPPORT. The invariant of Safety.lean state by state, and that every row and every move keeps it
(spec/40_encoder.md R98, spec/10_state.md R24, R29, R31 to R33, spec/20_memory.md R51). -/

namespace Sys2Proof.Machine

/-! The parts of the invariant in each state of a unit. -/

section
variable {e : Enc}

theorem encInv_first_iff (hst : e.st = .first) : encInv e = true ↔ e.idx = 0 := by
  simp [encInv, hst]

theorem encInv_chain_iff (hst : e.st = .chain) :
    encInv e = true ↔ 1 ≤ e.idx.toNat ∧ e.idx.toNat ≤ 9 ∧ e.w.toNat < 2 ^ (67 - 7 * e.idx.toNat) := by
  simp [encInv, hst]

theorem encInv_done_iff (hst : e.st = .done) : encInv e = true ↔ 1 ≤ e.idx.toNat ∧ e.idx.toNat ≤ 10 := by
  simp [encInv, hst]

end

section
variable {p : Params} {d : Dec}

theorem decInv_first_iff (hst : d.st = .first) :
    decInv p d = true ↔ (d.start < 2 ^ p.aw ∧ d.last < 2 ^ p.aw) ∧ d.off = 0 ∧ d.status = .ok := by
  simp [decInv, hst, addressFits_iff]

theorem decInv_accum_iff (hst : d.st = .accum) :
    decInv p d = true ↔ (d.start < 2 ^ p.aw ∧ d.last < 2 ^ p.aw) ∧
      1 ≤ d.off ∧ d.start + d.off ≤ d.last + 1 ∧ d.status = .ok := by
  simp [decInv, hst, addressFits_iff]

theorem decInv_done_iff (hst : d.st = .done) :
    decInv p d = true ↔ (d.start < 2 ^ p.aw ∧ d.last < 2 ^ p.aw) ∧
      ((d.status = .ok ∧ d.start + d.off ≤ d.last) ∨
        (d.status = .oob ∧ d.last < d.start + d.off ∧ (d.off = 0 ∨ d.start + d.off = d.last + 1))) := by
  simp [decInv, hst, addressFits_iff]

end

/-! The rows of `ENC`. -/

/-- At index 9 the bound of R98 leaves less than 128, so a continuation byte is emitted below it and leaves room for
the final byte. -/
theorem cont_keeps_bound {i w : Nat} (hi : i ≤ 9) (hw : 128 ≤ w) (hbound : w < 2 ^ (67 - 7 * i)) :
    i + 1 ≤ 9 ∧ (w - 128) / 128 < 2 ^ (67 - 7 * (i + 1)) := by
  have hi8 : i ≤ 8 := by
    by_contra hgt
    obtain rfl : i = 9 := by omega
    omega
  have hexp : 67 - 7 * i = 67 - 7 * (i + 1) + 7 := by omega
  rw [hexp, Nat.pow_add] at hbound
  exact ⟨by omega, by omega⟩

theorem exec_encoderRows_keeps_encInv {i : Instr} {s t : State} (hi : encoderRows i) (h : exec i s = .next t)
    (hinv : encInv s.enc = true) : encInv t.enc = true := by
  rcases hi with hstep | ⟨v, rfl | rfl⟩
  · simp only [List.mem_cons, List.not_mem_nil, or_false] at hstep
    rcases hstep with rfl | rfl | rfl | rfl
    · obtain ⟨-, -, rfl⟩ := execEncSingle_next h
      exact (encInv_done_iff rfl).mpr ⟨by simp, by simp⟩
    · obtain ⟨-, hw, rfl⟩ := execEncPrefix_next h
      have hwork := workAfterPrefix_toNat ((encGe240_iff _).mp hw)
      refine (encInv_chain_iff rfl).mpr ⟨by simp, by simp, ?_⟩
      simp only [State.withEnc_enc, hwork]
      exact show (s.enc.w.toNat - 240) / 16 < 2 ^ 60 by omega
    · obtain ⟨hst, hw, hi, rfl⟩ := execEncCont_next h
      obtain ⟨-, hle, hbound⟩ := (encInv_chain_iff hst).mp hinv
      have hw' := (encGe128_iff _).mp hw
      obtain ⟨hle', hbound'⟩ := cont_keeps_bound hle hw' hbound
      refine (encInv_chain_iff rfl).mpr ?_
      simp only [State.withEnc_enc, toNat_idx_succ hi, workAfterCont_toNat hw']
      exact ⟨Nat.le_add_left 1 _, hle', hbound'⟩
    · obtain ⟨hst, -, hi, rfl⟩ := execEncFinal_next h
      refine (encInv_done_iff rfl).mpr ?_
      simp only [State.withEnc_enc, toNat_idx_succ hi]
      exact ⟨Nat.le_add_left 1 _, hi⟩
  · obtain ⟨-, rfl⟩ := execEncode_next h
    have hlen := encSeq_length_le v.isLt
    have hidx : (BitVec.ofNat 4 (encSeq v.toNat).length).toNat = (encSeq v.toNat).length :=
      Nat.mod_eq_of_lt (by omega)
    refine (encInv_done_iff rfl).mpr ?_
    simp only [State.withEnc_enc, hidx]
    exact ⟨encSeq_length_pos _, hlen⟩
  · obtain ⟨-, rfl⟩ := execEncStart_next h
    exact (encInv_first_iff rfl).mpr rfl

/-! The handlers and the rows of `DEC`. -/

section
variable {b : Byte} {s t : State}

theorem takeSingle_keeps_decInv (h : takeSingle b s = .next t) (hinv : decInv s.params s.dec = true) :
    decInv t.params t.dec = true := by
  obtain ⟨hst, hin, -, rfl⟩ := takeSingle_next h
  obtain ⟨haddr, hoff, hok⟩ := (decInv_first_iff hst).mp hinv
  exact (decInv_done_iff rfl).mpr ⟨haddr, .inl ⟨hok, by simpa [hoff] using hin⟩⟩

theorem takePrefix_keeps_decInv (h : takePrefix b s = .next t) (hinv : decInv s.params s.dec = true) :
    decInv t.params t.dec = true := by
  obtain ⟨hst, hin, -, rfl⟩ := takePrefix_next h
  obtain ⟨haddr, -, hok⟩ := (decInv_first_iff hst).mp hinv
  exact (decInv_accum_iff rfl).mpr ⟨haddr, le_rfl, Nat.succ_le_succ hin, hok⟩

theorem takeCont_keeps_decInv (h : takeCont b s = .next t) (hinv : decInv s.params s.dec = true) :
    decInv t.params t.dec = true := by
  obtain ⟨hst, hin, -, rfl⟩ := takeCont_next h
  obtain ⟨haddr, -, -, hok⟩ := (decInv_accum_iff hst).mp hinv
  refine (decInv_accum_iff ?_).mpr
    ⟨haddr, Nat.le_add_left 1 _, Nat.succ_le_succ ((decInb_iff _).mp hin), hok⟩
  exact hst

theorem takeFinal_keeps_decInv (h : takeFinal b s = .next t) (hinv : decInv s.params s.dec = true) :
    decInv t.params t.dec = true := by
  obtain ⟨hst, hin, -, rfl⟩ := takeFinal_next h
  obtain ⟨haddr, -, -, hok⟩ := (decInv_accum_iff hst).mp hinv
  exact (decInv_done_iff rfl).mpr ⟨haddr, .inl ⟨hok, (decInb_iff _).mp hin⟩⟩

end

theorem exec_decoderRows_keeps_decInv {i : Instr} {s t : State} (hi : ¬ encoderRows i) (h : exec i s = .next t)
    (hinv : decInv s.params s.dec = true) : decInv t.params t.dec = true := by
  cases i with
  | encode v => exact absurd (.inr ⟨v, .inl rfl⟩) hi
  | encStart v => exact absurd (.inr ⟨v, .inr rfl⟩) hi
  | encSingle | encPrefix | encCont | encFinal => exact absurd (.inl (by simp)) hi
  | decode a e =>
    obtain ⟨-, ha, he, rfl⟩ := execDecode_next h
    refine (decInv_done_iff rfl).mpr ⟨⟨ha, he⟩, ?_⟩
    refine (decodeRange_end s.params.decOvf s.mem a e s.dec.acc s.draws).imp_right fun ⟨hoob, hoff⟩ => ?_
    refine ⟨hoob, ?_⟩
    simp only [State.withDraws_dec, State.withDec_dec, hoff]
    omega
  | decStart a e =>
    obtain ⟨-, ha, he, rfl⟩ := execDecStart_next h
    exact (decInv_first_iff rfl).mpr ⟨⟨ha, he⟩, rfl, rfl⟩
  | decOob0 =>
    obtain ⟨hst, hout, rfl⟩ := execDecOob0_next h
    obtain ⟨haddr, hoff, -⟩ := (decInv_first_iff hst).mp hinv
    exact (decInv_done_iff rfl).mpr ⟨haddr, .inr ⟨rfl, by simpa [hoff] using hout, .inl hoff⟩⟩
  | decOobk =>
    obtain ⟨hst, hout, rfl⟩ := execDecOobk_next h
    obtain ⟨haddr, -, hle, -⟩ := (decInv_accum_iff hst).mp hinv
    exact (decInv_done_iff rfl).mpr ⟨haddr, .inr ⟨rfl, hout, .inr (Nat.le_antisymm hle hout)⟩⟩
  | decSingle => exact takeSingle_keeps_decInv (execDecSingle_next h).2 hinv
  | decPrefix => exact takePrefix_keeps_decInv (execDecPrefix_next h).2 hinv
  | decCont => exact takeCont_keeps_decInv (execDecCont_next h).2 hinv
  | decFinal => exact takeFinal_keeps_decInv (execDecFinal_next h).2 hinv
  | byteSingleA v | byteSingleB v | byteSingleC v | byteSingleD v => exact takeSingle_keeps_decInv h hinv
  | bytePrefix n => exact takePrefix_keeps_decInv h hinv
  | byteCont q => exact takeCont_keeps_decInv h hinv
  | byteFinal q => exact takeFinal_keeps_decInv h hinv

/-- A row writes neither `MEM` nor the parameters, and of the two units only its own. -/
theorem exec_keeps_inv {i : Instr} {s t : State} (hinv : Inv s = true) (h : exec i s = .next t) :
    Inv t = true := by
  obtain ⟨hmem, henc, hdec⟩ := (inv_iff s).mp hinv
  obtain ⟨hparams, hmem', -, -, hother, hother'⟩ := instructionsWriteOnlyTheirUnit i s t h
  refine (inv_iff t).mpr ⟨by rw [hparams, hmem']; exact hmem, ?_⟩
  by_cases hi : encoderRows i
  · exact ⟨exec_encoderRows_keeps_encInv hi h henc, by rw [hparams, (hother hi).1]; exact hdec⟩
  · exact ⟨by rw [hother' hi]; exact henc, exec_decoderRows_keeps_decInv hi h hdec⟩

/-! The moves of the agents. -/

/-- A next state that the answer gives has the invariant. -/
def KeepsInv (ans : Answer) : Prop := ∀ t, ans = .next t → Inv t = true

theorem keepsInv_next {s : State} (hinv : Inv s = true) : KeepsInv (.next s) := by
  rintro t ⟨⟩
  exact hinv

theorem keepsInv_refused (r : Refusal) : KeepsInv (.refused r) := nofun

theorem keepsInv_ite {c : Prop} [Decidable c] {x y : Answer} (hx : KeepsInv x) (hy : KeepsInv y) :
    KeepsInv (if c then x else y) := by
  split
  · exact hx
  · exact hy

theorem keepsInv_exec {s : State} (hinv : Inv s = true) (i : Instr) : KeepsInv (exec i s) :=
  fun _ h => exec_keeps_inv hinv h

theorem keepsInv_encMove {s : State} (hinv : Inv s = true) : KeepsInv (encMove s) := by
  unfold encMove
  split
  · exact keepsInv_exec hinv _
  · exact keepsInv_next hinv

theorem keepsInv_decMove {s : State} (hinv : Inv s = true) : KeepsInv (decMove s) := by
  unfold decMove
  split
  · exact keepsInv_exec hinv _
  · exact keepsInv_next hinv
  · nofun

/-- The host writes inside `MEM`. -/
theorem keepsInv_hostWrite {s : State} (hinv : Inv s = true) (a : Nat) (bytes : List Byte)
    (rest : List HostAction) : KeepsInv (hostWrite s a bytes rest) := by
  intro t h
  obtain ⟨hfit, rfl | ⟨-, rfl⟩⟩ := hostWrite_next h
  · exact hinv
  · obtain ⟨hmem, henc, hdec⟩ := (inv_iff s).mp hinv
    exact (inv_iff _).mpr ⟨wf_memWriteList hmem hfit, henc, hdec⟩

/-- The registers that reset leaves free are no part of the invariant but for the two addresses, which are of `AW`
bits (spec/10_state.md R38). -/
theorem inv_resetUnits {s : State} (hmem : s.mem.wf s.params = true) : Inv (resetUnits s) = true := by
  have hpos : 0 < 2 ^ s.params.aw := Nat.two_pow_pos _
  refine (inv_iff _).mpr ⟨hmem, rfl, ?_⟩
  simp [resetUnits, decInv, addressFits_iff, Nat.mod_lt _ hpos]

theorem keepsInv_hostMove {s : State} (hinv : Inv s = true) : KeepsInv (hostMove s) := by
  have hexec (i : Instr) (l : List HostAction) : KeepsInv (exec i (s.withScript l)) :=
    keepsInv_exec ((inv_withScript s l).trans hinv) i
  unfold hostMove
  split
  · exact keepsInv_next hinv
  · exact keepsInv_ite (hexec _ _) (keepsInv_next hinv)
  · exact keepsInv_ite (hexec _ _) (keepsInv_next hinv)
  · exact keepsInv_hostWrite hinv _ _ _
  · split
    · exact keepsInv_hostWrite hinv _ _ _
    · exact keepsInv_ite (keepsInv_refused _) (keepsInv_next hinv)
  · obtain ⟨hmem, -, -⟩ := (inv_iff s).mp hinv
    exact keepsInv_next (inv_resetUnits hmem)

/-- Settles O52: a step is a move of one agent, and each agent's moves keep the invariant. -/
theorem everyStepKeepsTheInvariant : Obligations.EveryStepKeepsTheInvariant := by
  refine fun s t hinv => ⟨?_, fun _ => exec_keeps_inv hinv⟩
  have hinv' : Inv (s.withSched s.sched.tail) = true := (inv_withSched s _).trans hinv
  unfold step
  cases nextAgent s with
  | enc => exact keepsInv_encMove hinv' t
  | dec => exact keepsInv_decMove hinv' t
  | host => exact keepsInv_hostMove hinv' t

end Sys2Proof.Machine
end

section
/-! SUPPORT. Each step of `DEC` where its guard holds and where it is false, the run of its steps and the operation
`DECODE`; the statements of spec/41_decoder.md. -/

namespace Sys2Proof.Machine

/-- The bounds test when it answers no (spec/10_state.md R34). -/
theorem decInb_eq_false_iff (d : Dec) : decInb d = false ↔ d.last < d.start + d.off := by
  rw [← Bool.not_eq_true, decInb_iff, Nat.not_le]

/-! What each step of `DEC` does when its guard holds, and that it is refused when the guard is false. -/

section
variable {s : State}

theorem exec_decStart_of_rest {a e : Nat} (hrest : s.dec.st = .idle ∨ s.dec.st = .done)
    (ha : a < 2 ^ s.params.aw) (he : e < 2 ^ s.params.aw) :
    exec (.decStart a e) s = .next (decAccept s a e) := by
  have hfits : (addressFits s.params a && addressFits s.params e) = true := by
    rw [Bool.and_eq_true, addressFits_iff, addressFits_iff]
    exact ⟨ha, he⟩
  exact (if_pos ((decAtRest_iff _).mpr hrest)).trans (if_pos hfits)

theorem exec_decStart_of_busy (a e : Nat) (hbusy : s.dec.st = .first ∨ s.dec.st = .accum) :
    exec (.decStart a e) s = .refused (.unitBusy .dec) := by
  refine if_neg fun hrest => ?_
  rw [decAtRest_iff] at hrest
  rcases hbusy with hst | hst <;> simp [hst] at hrest

theorem exec_decOob0_of_out (hst : s.dec.st = .first) (hout : s.dec.last < s.dec.start) :
    exec .decOob0 s = .next (raiseOutOfBounds s) :=
  if_pos ⟨hst, hout⟩

theorem exec_decOob0_refused (h : ¬ (s.dec.st = .first ∧ s.dec.last < s.dec.start)) :
    exec .decOob0 s = .refused .stepNotEnabled :=
  if_neg h

theorem exec_decOobk_of_out (hst : s.dec.st = .accum) (hout : s.dec.last < s.dec.start + s.dec.off) :
    exec .decOobk s = .next (raiseOutOfBounds s) :=
  if_pos ⟨hst, (decInb_eq_false_iff _).mpr hout⟩

theorem exec_decOobk_refused (h : ¬ (s.dec.st = .accum ∧ s.dec.last < s.dec.start + s.dec.off)) :
    exec .decOobk s = .refused .stepNotEnabled :=
  if_neg (by rwa [decInb_eq_false_iff])

end

/-! The steps that read a byte, while `END` is an address of `MEM` (spec/20_memory.md R58). -/

section
variable {s : State}

/-- A byte that its handler does not take leaves the step not enabled, in bounds and out of bounds. -/
theorem decReadByte_refused (hlast : s.dec.last < 2 ^ s.params.aw) {st : DecSt} {a : Nat}
    {handle : Byte → State → Answer} (h : handle (memRead s.mem a) s = .refused .stepNotEnabled) :
    decReadByte st a s handle = .refused .stepNotEnabled := by
  by_cases hg : s.dec.st = st ∧ a ≤ s.dec.last
  · rw [decReadByte_of_inb hg.1 hg.2 (hg.2.trans_lt hlast), h]
  · exact if_neg hg

theorem exec_decSingle_of_lt (hlast : s.dec.last < 2 ^ s.params.aw) (hst : s.dec.st = .first)
    (hin : s.dec.start ≤ s.dec.last) (hb : (memRead s.mem s.dec.start).toNat < 240) :
    exec .decSingle s = .next { s with dec :=
      { s.dec with acc := BitVec.ofNat 64 (memRead s.mem s.dec.start).toNat, st := .done } } :=
  (decReadByte_of_inb hst hin (hin.trans_lt hlast) takeSingle).trans (takeSingle_of_lt hst hin hb)

theorem exec_decSingle_refused (hlast : s.dec.last < 2 ^ s.params.aw)
    (h : ¬ (s.dec.st = .first ∧ s.dec.start ≤ s.dec.last ∧ (memRead s.mem s.dec.start).toNat < 240)) :
    exec .decSingle s = .refused .stepNotEnabled :=
  decReadByte_refused hlast (if_neg (by rwa [byteGe240_eq_false_iff]))

theorem exec_decPrefix_of_ge (hlast : s.dec.last < 2 ^ s.params.aw) (hst : s.dec.st = .first)
    (hin : s.dec.start ≤ s.dec.last) (hb : 240 ≤ (memRead s.mem s.dec.start).toNat) :
    exec .decPrefix s = .next { s with dec :=
      { s.dec with acc := BitVec.ofNat 64 (memRead s.mem s.dec.start).toNat, off := 1, st := .accum } } :=
  (decReadByte_of_inb hst hin (hin.trans_lt hlast) takePrefix).trans (takePrefix_of_ge hst hin hb)

theorem exec_decPrefix_refused (hlast : s.dec.last < 2 ^ s.params.aw)
    (h : ¬ (s.dec.st = .first ∧ s.dec.start ≤ s.dec.last ∧ 240 ≤ (memRead s.mem s.dec.start).toNat)) :
    exec .decPrefix s = .refused .stepNotEnabled :=
  decReadByte_refused hlast (if_neg (by rwa [byteGe240_iff]))

theorem exec_decCont_of_ge (hlast : s.dec.last < 2 ^ s.params.aw) (hst : s.dec.st = .accum)
    (hin : s.dec.start + s.dec.off ≤ s.dec.last)
    (hb : 128 ≤ (memRead s.mem (s.dec.start + s.dec.off)).toNat) :
    exec .decCont s = .next { s with
      dec := { s.dec with
        acc := (accumulate s.params.decOvf s.dec.acc (memRead s.mem (s.dec.start + s.dec.off)) s.dec.off s.draws).1
        off := s.dec.off + 1 }
      draws := (accumulate s.params.decOvf s.dec.acc (memRead s.mem (s.dec.start + s.dec.off)) s.dec.off
        s.draws).2 } :=
  (decReadByte_of_inb hst hin (hin.trans_lt hlast) takeCont).trans (takeCont_of_ge hst hin hb)

theorem exec_decCont_refused (hlast : s.dec.last < 2 ^ s.params.aw)
    (h : ¬ (s.dec.st = .accum ∧ s.dec.start + s.dec.off ≤ s.dec.last ∧
      128 ≤ (memRead s.mem (s.dec.start + s.dec.off)).toNat)) :
    exec .decCont s = .refused .stepNotEnabled :=
  decReadByte_refused hlast (if_neg (by rwa [decInb_iff, byteGe128_iff]))

theorem exec_decFinal_of_lt (hlast : s.dec.last < 2 ^ s.params.aw) (hst : s.dec.st = .accum)
    (hin : s.dec.start + s.dec.off ≤ s.dec.last)
    (hb : (memRead s.mem (s.dec.start + s.dec.off)).toNat < 128) :
    exec .decFinal s = .next { s with
      dec := { s.dec with
        acc := (accumulate s.params.decOvf s.dec.acc (memRead s.mem (s.dec.start + s.dec.off)) s.dec.off s.draws).1
        st := .done }
      draws := (accumulate s.params.decOvf s.dec.acc (memRead s.mem (s.dec.start + s.dec.off)) s.dec.off
        s.draws).2 } :=
  (decReadByte_of_inb hst hin (hin.trans_lt hlast) takeFinal).trans (takeFinal_of_lt hst hin hb)

theorem exec_decFinal_refused (hlast : s.dec.last < 2 ^ s.params.aw)
    (h : ¬ (s.dec.st = .accum ∧ s.dec.start + s.dec.off ≤ s.dec.last ∧
      (memRead s.mem (s.dec.start + s.dec.off)).toNat < 128)) :
    exec .decFinal s = .refused .stepNotEnabled :=
  decReadByte_refused hlast (if_neg (by rwa [decInb_iff, byteGe128_eq_false_iff]))

end

/-- Settles O10: a busy unit is not at rest. -/
theorem decStartLatchesTheRange : Obligations.DecStartLatchesTheRange :=
  fun a e _ ha he => ⟨fun hrest => exec_decStart_of_rest hrest ha he, exec_decStart_of_busy a e⟩

/-- Settles O11: the guard is all that the step asks, and it raises. -/
theorem decOob0RaisesOnAnEmptyRange : Obligations.DecOob0RaisesOnAnEmptyRange :=
  fun _ => ⟨exec_decOob0_of_out, exec_decOob0_refused⟩

/-- Settles O12: an address up to `END` is one of `MEM`, so the step reads its byte and hands it on. -/
theorem decSingleReturnsTheByte : Obligations.DecSingleReturnsTheByte :=
  fun _ hlast => ⟨exec_decSingle_of_lt hlast, exec_decSingle_refused hlast⟩

/-- Settles O13: as O12, on the other side of 240. -/
theorem decPrefixLoadsTheByteUnmasked : Obligations.DecPrefixLoadsTheByteUnmasked :=
  fun _ hlast => ⟨exec_decPrefix_of_ge hlast, exec_decPrefix_refused hlast⟩

/-- Settles O14: the bounds test fails exactly where `START + OFF` is past `END`. -/
theorem decOobkRaisesOnATruncatedSequence : Obligations.DecOobkRaisesOnATruncatedSequence :=
  fun _ => ⟨exec_decOobk_of_out, exec_decOobk_refused⟩

/-- Settles O15: the sum is exact where `accumulate` is. -/
theorem decContAddsTheShiftedByte : Obligations.DecContAddsTheShiftedByte :=
  fun _ hlast => ⟨fun hst hin hb => ⟨_, _, exec_decCont_of_ge hlast hst hin hb, accumulate_eq_sum⟩,
    exec_decCont_refused hlast⟩

/-- Settles O16: the sum is exact where `accumulate` is. -/
theorem decFinalAddsTheByteAndStops : Obligations.DecFinalAddsTheByteAndStops :=
  fun _ hlast => ⟨fun hst hin hb => ⟨_, _, exec_decFinal_of_lt hlast hst hin hb, accumulate_eq_sum⟩,
    exec_decFinal_refused hlast⟩

/-! The graph of `DEC` (spec/41_decoder.md R112). -/

/-- Settles O17: the edges are what the steps can do; while `DEC` is busy the bounds test and one comparison leave
one guard true. -/
theorem decoderGraphHasOneEnabledStep : Obligations.DecoderGraphHasOneEnabledStep := by
  refine ⟨?start, ?oob0, ?single, ?pfx, ?oobk, ?cont, ?final, ?enabled⟩
  case start =>
    intro s t a e h
    obtain ⟨hrest, -, -, rfl⟩ := execDecStart_next h
    exact ⟨hrest, rfl⟩
  case oob0 =>
    intro s t h
    obtain ⟨hst, hout, rfl⟩ := execDecOob0_next h
    exact ⟨hst, hout, rfl, rfl⟩
  case single =>
    intro s t h
    obtain ⟨hst, hin, hb, rfl⟩ := takeSingle_next (execDecSingle_next h).2
    exact ⟨hst, hin, (byteGe240_eq_false_iff _).mp hb, rfl, rfl⟩
  case pfx =>
    intro s t h
    obtain ⟨hst, hin, hb, rfl⟩ := takePrefix_next (execDecPrefix_next h).2
    exact ⟨hst, hin, (byteGe240_iff _).mp hb, rfl⟩
  case oobk =>
    intro s t h
    obtain ⟨hst, hout, rfl⟩ := execDecOobk_next h
    exact ⟨hst, hout, rfl, rfl⟩
  case cont =>
    intro s t h
    obtain ⟨hst, hin, hb, rfl⟩ := takeCont_next (execDecCont_next h).2
    exact ⟨hst, (decInb_iff _).mp hin, (byteGe128_iff _).mp hb, hst⟩
  case final =>
    intro s t h
    obtain ⟨hst, hin, hb, rfl⟩ := takeFinal_next (execDecFinal_next h).2
    exact ⟨hst, (decInb_iff _).mp hin, (byteGe128_eq_false_iff _).mp hb, rfl, rfl⟩
  case enabled =>
    intro s hbusy hlast
    rcases hbusy with hst | hst
    · have hoobk := exec_decOobk_refused (s := s) (by simp [hst])
      have hcont := exec_decCont_refused hlast (by simp [hst])
      have hfinal := exec_decFinal_refused hlast (by simp [hst])
      rcases Nat.lt_or_ge s.dec.last s.dec.start with hout | hin
      · have hsingle := exec_decSingle_refused hlast (by omega)
        have hpfx := exec_decPrefix_refused hlast (by omega)
        exact ⟨.decOob0, by simp, ⟨_, exec_decOob0_of_out hst hout⟩,
          by simp [hsingle, hpfx, hoobk, hcont, hfinal]⟩
      · have hoob0 := exec_decOob0_refused (s := s) (by omega)
        rcases Nat.lt_or_ge (memRead s.mem s.dec.start).toNat 240 with hb | hb
        · have hpfx := exec_decPrefix_refused hlast (by omega)
          exact ⟨.decSingle, by simp, ⟨_, exec_decSingle_of_lt hlast hst hin hb⟩,
            by simp [hoob0, hpfx, hoobk, hcont, hfinal]⟩
        · have hsingle := exec_decSingle_refused hlast (by omega)
          exact ⟨.decPrefix, by simp, ⟨_, exec_decPrefix_of_ge hlast hst hin hb⟩,
            by simp [hoob0, hsingle, hoobk, hcont, hfinal]⟩
    · have hoob0 := exec_decOob0_refused (s := s) (by simp [hst])
      have hsingle := exec_decSingle_refused hlast (by simp [hst])
      have hpfx := exec_decPrefix_refused hlast (by simp [hst])
      rcases Nat.lt_or_ge s.dec.last (s.dec.start + s.dec.off) with hout | hin
      · have hcont := exec_decCont_refused hlast (by omega)
        have hfinal := exec_decFinal_refused hlast (by omega)
        exact ⟨.decOobk, by simp, ⟨_, exec_decOobk_of_out hst hout⟩,
          by simp [hoob0, hsingle, hpfx, hcont, hfinal]⟩
      · have hoobk := exec_decOobk_refused (s := s) (by omega)
        rcases Nat.lt_or_ge (memRead s.mem (s.dec.start + s.dec.off)).toNat 128 with hb | hb
        · have hcont := exec_decCont_refused hlast (by omega)
          exact ⟨.decFinal, by simp, ⟨_, exec_decFinal_of_lt hlast hst hin hb⟩,
            by simp [hoob0, hsingle, hpfx, hoobk, hcont]⟩
        · have hfinal := exec_decFinal_refused hlast (by omega)
          exact ⟨.decCont, by simp, ⟨_, exec_decCont_of_ge hlast hst hin hb⟩,
            by simp [hoob0, hsingle, hpfx, hoobk, hfinal]⟩

/-! The loop of `DECODE` turn by turn (spec/41_decoder.md R111). -/

section
variable (o : DecOvf) {m : Memory} {start k : Nat} (left : Nat) (acc : Word) (draws : Nat)

theorem decodeLoop_of_ge (hb : 128 ≤ (memRead m (start + k)).toNat) :
    decodeLoop o m start (left + 1) k acc draws =
      decodeLoop o m start left (k + 1) (accumulate o acc (memRead m (start + k)) k draws).1
        (accumulate o acc (memRead m (start + k)) k draws).2 :=
  if_pos ((byteGe128_iff _).mpr hb)

theorem decodeLoop_of_lt (hb : (memRead m (start + k)).toNat < 128) :
    decodeLoop o m start (left + 1) k acc draws =
      { status := .ok, acc := (accumulate o acc (memRead m (start + k)) k draws).1, off := k,
        draws := (accumulate o acc (memRead m (start + k)) k draws).2 } :=
  if_neg (by rw [byteGe128_iff]; omega)

end

section
variable (o : DecOvf) {m : Memory} {start last : Nat} (stale : Word) (draws : Nat)

theorem decodeRange_of_out (hout : last < start) :
    decodeRange o m start last stale draws = { status := .oob, acc := stale, off := 0, draws := draws } :=
  if_pos hout

theorem decodeRange_of_lt (hin : start ≤ last) (hb : (memRead m start).toNat < 240) :
    decodeRange o m start last stale draws =
      { status := .ok, acc := BitVec.ofNat 64 (memRead m start).toNat, off := 0, draws := draws } := by
  rw [BitVec.ofNat_toNat]
  exact (if_neg (Nat.not_lt.mpr hin)).trans (if_neg (by rw [byteGe240_iff]; omega))

theorem decodeRange_of_ge (hin : start ≤ last) (hb : 240 ≤ (memRead m start).toNat) :
    decodeRange o m start last stale draws =
      decodeLoop o m start (last - start) 1 (BitVec.ofNat 64 (memRead m start).toNat) draws := by
  rw [BitVec.ofNat_toNat]
  exact (if_neg (Nat.not_lt.mpr hin)).trans (if_pos ((byteGe240_iff _).mpr hb))

end

/-! The run of the steps (spec/41_decoder.md R123). -/

theorem decMove_of_fetch {s : State} {i : Instr} (hfetch : decFetch s = .ok (some i)) :
    agentMove .dec s = exec i s := by
  simp [agentMove, decMove, hfetch]

/-- A move on the class of the byte fetched is the step that the class names. -/
theorem decMove_of_class {s : State} {i j : Instr} (hfetch : decFetch s = .ok (some i))
    (hstep : decoderStep i = some j) : agentMove .dec s = exec j s :=
  (decMove_of_fetch hfetch).trans (byteClassesDoWhatTheirDecoderStepDoes s i j hfetch hstep)

/-- In `DONE` the unit stays as it is. -/
theorem agentRun_dec_of_done {s : State} (hst : s.dec.st = .done) (n : Nat) : agentRun .dec n s = .next s := by
  induction n with
  | zero => rfl
  | succ n ih =>
    have hmove : agentMove .dec s = .next s := by simp [agentMove, decMove, decFetch, hst]
    rw [agentRun_succ hmove, ih]

/-- A run whose first move ends in `DONE` is that move. -/
theorem agentRun_dec_of_move_done {s t : State} {n : Nat} (hmove : agentMove .dec s = .next t)
    (hst : t.dec.st = .done) (hn : 1 ≤ n) : agentRun .dec n s = .next t := by
  obtain ⟨n, rfl⟩ := Nat.exists_eq_add_of_le' hn
  rw [agentRun_succ hmove, agentRun_dec_of_done hst]

/-- From `ACCUM` the run is the loop of `DECODE` over the `left` bytes that the range still has, one byte per move
and one move for the failed bounds test. -/
theorem agentRun_dec_accum {left : Nat} {s : State} {n : Nat} (hlast : s.dec.last < 2 ^ s.params.aw)
    (hst : s.dec.st = .accum) (hok : s.dec.status = .ok)
    (hleft : s.dec.start + s.dec.off + left = s.dec.last + 1) (hn : left + 1 ≤ n) :
    agentRun .dec n s = .next
      ((decodeLoop s.params.decOvf s.mem s.dec.start left s.dec.off s.dec.acc s.draws).deliver
        s.dec.start s.dec.last s) := by
  induction left generalizing s n with
  | zero =>
    have hout : s.dec.last < s.dec.start + s.dec.off := by omega
    have hmove := (decMove_of_fetch (decFetch_accum_of_oob hst hout)).trans (exec_decOobk_of_out hst hout)
    exact agentRun_dec_of_move_done hmove rfl hn
  | succ left ih =>
    have hin : s.dec.start + s.dec.off ≤ s.dec.last := by omega
    have hfetch := (decFetch_accum_of_inb hst hin).trans (decFetchAt_of_lt (hin.trans_lt hlast) .later)
    rcases Nat.lt_or_ge (memRead s.mem (s.dec.start + s.dec.off)).toNat 128 with hb | hb
    · obtain ⟨-, hstep, -⟩ := finalClass_of_lt hb
      have hmove := (decMove_of_class hfetch hstep).trans (exec_decFinal_of_lt hlast hst hin hb)
      rw [agentRun_dec_of_move_done hmove rfl (by omega), decodeLoop_of_lt _ _ _ _ hb, DecodeEnd.deliver, ← hok]
      rfl
    · obtain ⟨-, hstep, -⟩ := contClass_of_ge hb
      have hmove := (decMove_of_class hfetch hstep).trans (exec_decCont_of_ge hlast hst hin hb)
      obtain ⟨n, rfl⟩ := Nat.exists_eq_add_of_le' (Nat.one_le_of_lt hn)
      have hleft' : s.dec.start + (s.dec.off + 1) + left = s.dec.last + 1 := by omega
      rw [agentRun_succ hmove, decodeLoop_of_ge _ _ _ _ hb]
      exact ih hlast hst hok hleft' (Nat.le_of_succ_le_succ hn)

/-- From `FIRST` the run is `DECODE` over the range latched. -/
theorem agentRun_dec_first {s : State} {n : Nat} (hlast : s.dec.last < 2 ^ s.params.aw)
    (hst : s.dec.st = .first) (hoff : s.dec.off = 0) (hok : s.dec.status = .ok)
    (hn : (s.dec.last + 1 - s.dec.start) + 1 ≤ n) :
    agentRun .dec n s = .next
      ((decodeRange s.params.decOvf s.mem s.dec.start s.dec.last s.dec.acc s.draws).deliver
        s.dec.start s.dec.last s) := by
  rcases Nat.lt_or_ge s.dec.last s.dec.start with hout | hin
  · have hmove := (decMove_of_fetch (decFetch_first_of_oob hst hout)).trans (exec_decOob0_of_out hst hout)
    rw [agentRun_dec_of_move_done hmove rfl (by omega), decodeRange_of_out _ _ _ hout, DecodeEnd.deliver, ← hoff]
    rfl
  · have hfetch := (decFetch_first_of_inb hst hin).trans (decFetchAt_of_lt (hin.trans_lt hlast) .first)
    rcases Nat.lt_or_ge (memRead s.mem s.dec.start).toNat 240 with hb | hb
    · obtain ⟨-, hstep, -⟩ := singleClass_of_lt hb
      have hmove := (decMove_of_class hfetch hstep).trans (exec_decSingle_of_lt hlast hst hin hb)
      rw [agentRun_dec_of_move_done hmove rfl (by omega), decodeRange_of_lt _ _ _ hin hb, DecodeEnd.deliver, ← hoff,
        ← hok]
      rfl
    · obtain ⟨-, hstep, -⟩ := prefixClass_of_ge hb
      have hmove := (decMove_of_class hfetch hstep).trans (exec_decPrefix_of_ge hlast hst hin hb)
      obtain ⟨n, rfl⟩ := Nat.exists_eq_add_of_le' (Nat.one_le_of_lt hn)
      have hleft : s.dec.start + 1 + (s.dec.last - s.dec.start) = s.dec.last + 1 := by omega
      rw [agentRun_succ hmove, decodeRange_of_ge _ _ _ hin hb]
      exact agentRun_dec_accum hlast rfl hok hleft (by omega)

/-- Settles O24: the run from `DEC.START` delivers what `decodeRange` gives, as the operation does. -/
theorem decodeIsTheRunOfItsSteps : Obligations.DecodeIsTheRunOfItsSteps :=
  fun _ _ _ hrest ha he => ⟨_, _, exec_decStart_of_rest hrest ha he, exec_decode_of_rest hrest ha he, rfl,
    fun _ hn => agentRun_dec_first he rfl rfl rfl hn⟩

/-! `DECODE` and the terminated sequence of its range (spec/30_encoding.md R73, R74). -/

section
variable {m : Memory} {a : Nat}

theorem chainTerminated_memSlice_of_ge (hb : 128 ≤ (memRead m a).toNat) (n : Nat) :
    chainTerminated (memSlice m a (n + 1)) = chainTerminated (memSlice m (a + 1) n) := by
  rw [memSlice_succ]
  exact if_pos ((byteGe128_iff _).mpr hb)

theorem chainTerminated_memSlice_of_lt (hb : (memRead m a).toNat < 128) (n : Nat) :
    chainTerminated (memSlice m a (n + 1)) = true ↔ n = 0 := by
  rw [memSlice_succ, chainTerminated, if_neg (by rw [byteGe128_iff]; omega), List.isEmpty_iff_length_eq_zero,
    memSlice_length]

theorem terminated_memSlice_of_ge (hb : 240 ≤ (memRead m a).toNat) (n : Nat) :
    terminated (memSlice m a (n + 1)) = chainTerminated (memSlice m (a + 1) n) := by
  rw [memSlice_succ]
  exact if_pos ((byteGe240_iff _).mpr hb)

theorem terminated_memSlice_of_lt (hb : (memRead m a).toNat < 240) (n : Nat) :
    terminated (memSlice m a (n + 1)) = true ↔ n = 0 := by
  rw [memSlice_succ, terminated, if_neg (by rw [byteGe240_iff]; omega), List.isEmpty_iff_length_eq_zero,
    memSlice_length]

end

theorem decodeLoop_le_off (o : DecOvf) (m : Memory) (start left k : Nat) (acc : Word) (draws : Nat) :
    k ≤ (decodeLoop o m start left k acc draws).off := by
  rcases decodeLoop_end o m start left k acc draws with ⟨-, hle, -⟩ | ⟨-, heq⟩ <;> omega

/-- The loop succeeds on byte `n` of what is left of the range exactly when a terminated chain ends there. -/
theorem decodeLoop_ok_iff (o : DecOvf) (m : Memory) (start left k : Nat) (acc : Word) (draws n : Nat) :
    ((decodeLoop o m start left k acc draws).status = .ok ∧
        (decodeLoop o m start left k acc draws).off = k + n) ↔
      n < left ∧ chainTerminated (memSlice m (start + k) (n + 1)) = true := by
  induction left generalizing k acc draws n with
  | zero => simp [decodeLoop]
  | succ left ih =>
    rcases Nat.lt_or_ge (memRead m (start + k)).toNat 128 with hb | hb
    · rw [decodeLoop_of_lt _ _ _ _ hb, chainTerminated_memSlice_of_lt hb]
      simp only [true_and]
      omega
    · rw [decodeLoop_of_ge _ _ _ _ hb, chainTerminated_memSlice_of_ge hb]
      cases n with
      | zero =>
        have hoff := decodeLoop_le_off o m start left (k + 1) (accumulate o acc (memRead m (start + k)) k draws).1
          (accumulate o acc (memRead m (start + k)) k draws).2
        simp only [memSlice_zero, chainTerminated, Bool.false_eq_true, and_false, iff_false, not_and]
        omega
      | succ n => rw [Nat.add_assoc start k 1, Nat.add_lt_add_iff_right, ← ih, Nat.add_assoc k 1, Nat.add_comm 1 n]

/-- `DECODE` succeeds on byte `n` of its range exactly when a terminated sequence ends there. -/
theorem decodeRange_ok_iff (o : DecOvf) (m : Memory) (start last : Nat) (stale : Word) (draws n : Nat) :
    ((decodeRange o m start last stale draws).status = .ok ∧
        (decodeRange o m start last stale draws).off = n) ↔
      start + n ≤ last ∧ terminated (memSlice m start (n + 1)) = true := by
  rcases Nat.lt_or_ge last start with hout | hin
  · rw [decodeRange_of_out _ _ _ hout]
    simp only [reduceCtorEq, false_and, false_iff, not_and]
    omega
  · rcases Nat.lt_or_ge (memRead m start).toNat 240 with hb | hb
    · rw [decodeRange_of_lt _ _ _ hin hb, terminated_memSlice_of_lt hb]
      simp only [true_and]
      omega
    · rw [decodeRange_of_ge _ _ _ hin hb, terminated_memSlice_of_ge hb]
      cases n with
      | zero =>
        have hoff := decodeLoop_le_off o m start (last - start) 1 (BitVec.ofNat 64 (memRead m start).toNat) draws
        simp only [memSlice_zero, chainTerminated, Bool.false_eq_true, and_false, iff_false, not_and]
        omega
      | succ n =>
        rw [Nat.add_comm n 1, decodeLoop_ok_iff, Nat.add_comm 1 n]
        exact and_congr_left' (by omega)

/-- On a terminated chain the loop adds the terms of `NAT`, mod 2^64; under `any` only while the sum fits. -/
theorem decodeLoop_sum {o : DecOvf} {m : Memory} {start left k : Nat} {acc : Word} (draws : Nat) {n : Nat}
    (hn : n < left) (hq : chainTerminated (memSlice m (start + k) (n + 1)) = true)
    (hfit : o = .wrap ∨ acc.toNat + natChain k (memSlice m (start + k) (n + 1)) < 2 ^ 64) :
    (decodeLoop o m start left k acc draws).draws = draws ∧
      (decodeLoop o m start left k acc draws).acc.toNat =
        (acc.toNat + natChain k (memSlice m (start + k) (n + 1))) % 2 ^ 64 := by
  induction left generalizing k acc n with
  | zero => exact absurd hn (Nat.not_lt_zero n)
  | succ left ih =>
    rw [memSlice_succ, natChain] at hfit ⊢
    have hacc : accumulate o acc (memRead m (start + k)) k draws =
        (BitVec.ofNat 64 (acc.toNat + shiftedByte (memRead m (start + k)) k), draws) :=
      accumulate_exact (hfit.imp_right fun h => by omega)
    rcases Nat.lt_or_ge (memRead m (start + k)).toNat 128 with hb | hb
    · obtain rfl := (chainTerminated_memSlice_of_lt hb n).mp hq
      rw [decodeLoop_of_lt _ _ _ _ hb, hacc]
      exact ⟨rfl, BitVec.toNat_ofNat _ _⟩
    · rw [chainTerminated_memSlice_of_ge hb] at hq
      cases n with
      | zero => cases hq
      | succ n =>
        rw [decodeLoop_of_ge _ _ _ _ hb, hacc]
        obtain ⟨hdraws, hsum⟩ := ih (k := k + 1)
          (acc := BitVec.ofNat 64 (acc.toNat + shiftedByte (memRead m (start + k)) k))
          (Nat.lt_of_succ_lt_succ hn) hq
          (hfit.imp_right fun h => by rw [BitVec.toNat_ofNat, ← Nat.add_assoc start k 1]; omega)
        rw [BitVec.toNat_ofNat, ← Nat.add_assoc start k 1] at hsum
        exact ⟨hdraws, hsum.trans (by omega)⟩

/-- `DECODE` of a terminated sequence gives its natural value mod 2^64; under `any` where the value fits. -/
theorem decodeRange_value {o : DecOvf} {m : Memory} {start last : Nat} (stale : Word) (draws : Nat) {n : Nat}
    (hn : start + n ≤ last) (hq : terminated (memSlice m start (n + 1)) = true)
    (hfit : o = .wrap ∨ natOf (memSlice m start (n + 1)) < 2 ^ 64) :
    (decodeRange o m start last stale draws).draws = draws ∧
      (decodeRange o m start last stale draws).acc.toNat = natOf (memSlice m start (n + 1)) % 2 ^ 64 := by
  have hin : start ≤ last := by omega
  have hfirst : (BitVec.ofNat 64 (memRead m start).toNat).toNat = (memRead m start).toNat := by
    rw [BitVec.toNat_ofNat]
    omega
  rw [memSlice_succ, natOf] at hfit ⊢
  rcases Nat.lt_or_ge (memRead m start).toNat 240 with hb | hb
  · obtain rfl := (terminated_memSlice_of_lt hb n).mp hq
    rw [decodeRange_of_lt _ _ _ hin hb]
    exact ⟨rfl, BitVec.toNat_ofNat _ _⟩
  · rw [terminated_memSlice_of_ge hb] at hq
    cases n with
    | zero => cases hq
    | succ n =>
      have hn' : n < last - start := by omega
      rw [decodeRange_of_ge _ _ _ hin hb]
      rw [← hfirst] at hfit
      obtain ⟨hdraws, hsum⟩ := decodeLoop_sum draws hn' hq hfit
      rw [hfirst] at hsum
      exact ⟨hdraws, hsum⟩

/-- Under `wrap` no free value is used. -/
theorem decodeRange_draws_of_wrap (m : Memory) (start last : Nat) (stale : Word) (draws : Nat) :
    (decodeRange .wrap m start last stale draws).draws = draws := by
  rw [decodeRange_wrap_draws m start last stale draws draws]

/-- Settles O23: `DECODE` succeeds on the last byte of the sequence that its range begins with, so it fails when
there is none. -/
theorem decodeReturnsTheSequenceOfItsRange : Obligations.DecodeReturnsTheSequenceOfItsRange := by
  intro a e s hrest ha he
  refine ⟨_, _, exec_decode_of_rest hrest ha he, rfl, rfl, rfl, ?sequence, ?none⟩
  case sequence =>
    intro l hl hq
    cases l with
    | zero => cases hq
    | succ n =>
      have hn : a + n ≤ e := by omega
      obtain ⟨hok, hoff⟩ := (decodeRange_ok_iff s.params.decOvf s.mem a e s.dec.acc s.draws n).mpr ⟨hn, hq⟩
      exact ⟨hok, congrArg (· + 1) hoff, decodeRange_value s.dec.acc s.draws hn hq⟩
  case none =>
    intro hnone
    rcases decodeRange_end s.params.decOvf s.mem a e s.dec.acc s.draws with ⟨hok, -⟩ | ⟨hoob, -⟩
    · obtain ⟨hn, hq⟩ := (decodeRange_ok_iff ..).mp ⟨hok, rfl⟩
      rw [hnone _ (by omega)] at hq
      cases hq
    · refine ⟨hoob, fun hwrap => ?_⟩
      rw [hwrap]
      exact decodeRange_draws_of_wrap ..

end Sys2Proof.Machine
end

section
/-! SUPPORT. The natural value of a sequence as the working values that `ENC` writes, and the length classes as
ranges of values; the statements of spec/42_codec_laws.md sections 2 and 3. -/

namespace Sys2Proof.Machine

/-- Settles O37: decoding is a function, so what follows the sequence in front is determined by the bytes. -/
theorem terminatedSequencesArePrefixFree : Obligations.TerminatedSequencesArePrefixFree := by
  rintro q q' hq hq' ⟨rest, rfl⟩
  have hshort : decodeSeq (q ++ rest) = .ok (sequenceRows q, rest) :=
    decodeSeq_eq_ok_iff.mpr ⟨q, hq, rfl, rfl⟩
  have hlong : decodeSeq (q ++ rest) = .ok (sequenceRows (q ++ rest), []) :=
    decodeSeq_eq_ok_iff.mpr ⟨q ++ rest, hq', (List.append_nil _).symm, rfl⟩
  obtain ⟨-, rfl⟩ := Prod.mk.inj (Except.ok.inj (hshort.symm.trans hlong))
  exact (List.append_nil q).symm

/-! The forms `C* F`, and `S` or `P C* F`, byte by byte (spec/30_encoding.md R73). -/

section
variable {b : Byte} {bs : List Byte}

theorem chainTerminated_cons_iff : chainTerminated (b :: bs) = true ↔
    (128 ≤ b.toNat ∧ chainTerminated bs = true) ∨ (b.toNat < 128 ∧ bs = []) := by
  rw [← byteGe128_iff, ← byteGe128_eq_false_iff, chainTerminated]
  cases byteGe128 b <;> simp

theorem terminated_cons_iff : terminated (b :: bs) = true ↔
    (240 ≤ b.toNat ∧ chainTerminated bs = true) ∨ (b.toNat < 240 ∧ bs = []) := by
  rw [← byteGe240_iff, ← byteGe240_eq_false_iff, terminated]
  cases byteGe240 b <;> simp

end

/-! The value of a chain is the working value that `ENC` writes by it (spec/42_codec_laws.md R131). -/

/-- The working value `w = b + 128·w'` of a chain. -/
def chainValue : List Byte → Nat
  | [] => 0
  | b :: bs => b.toNat + 128 * chainValue bs

theorem two_pow_shiftOf_succ (k : Nat) : 2 ^ shiftOf (k + 1 + 1) = 2 ^ shiftOf (k + 1) * 128 := by
  rw [show shiftOf (k + 1 + 1) = shiftOf (k + 1) + 7 by simp only [shiftOf]; omega, pow_add]
  rfl

theorem natChain_eq_chainValue (k : Nat) (bs : List Byte) :
    natChain (k + 1) bs = 2 ^ shiftOf (k + 1) * chainValue bs := by
  induction bs generalizing k with
  | nil => rfl
  | cons b bs ih =>
    rw [natChain, chainValue, ih, shiftedByte, two_pow_shiftOf_succ]
    ring

/-- The natural value is `b_0 + 16·w_1`. -/
theorem natOf_cons (b : Byte) (bs : List Byte) : natOf (b :: bs) = b.toNat + 16 * chainValue bs :=
  congrArg (b.toNat + ·) (natChain_eq_chainValue 0 bs)

/-! The loop of `ENC_SEQ` turn by turn (spec/40_encoder.md R91), the fuel bounding the working value. -/

theorem encChain_of_lt {w : Nat} (fuel : Nat) (hw : w < 128) : encChain fuel w = [BitVec.ofNat 8 w] := by
  cases fuel with
  | zero => rfl
  | succ fuel => exact if_neg (Nat.not_le.mpr hw)

theorem encChain_of_ge {w : Nat} (fuel : Nat) (hw : 128 ≤ w) :
    encChain (fuel + 1) w = contByte (BitVec.ofNat 7 w) :: encChain fuel ((w - 128) / 128) :=
  if_pos hw

theorem next_work_lt {w fuel : Nat} (hw : w < 128 ^ (fuel + 1 + 1)) : (w - 128) / 128 < 128 ^ (fuel + 1) := by
  rw [pow_succ] at hw
  omega

theorem toNat_contByte_ofNat (w : Nat) : (contByte (BitVec.ofNat 7 w)).toNat = 128 + w % 128 := by
  rw [contByte_toNat, BitVec.toNat_ofNat]

theorem toNat_prefixByte_ofNat (v : Nat) : (prefixByte (BitVec.ofNat 4 v)).toNat = 240 + v % 16 := by
  rw [prefixByte_toNat, BitVec.toNat_ofNat]

theorem final_byte_terminated_value {w : Nat} (hw : w < 128) :
    chainTerminated [BitVec.ofNat 8 w] = true ∧ chainValue [BitVec.ofNat 8 w] = w := by
  have hlow : (BitVec.ofNat 8 w).toNat = w := Nat.mod_eq_of_lt (by omega)
  rw [chainTerminated_cons_iff, hlow]
  exact ⟨.inr ⟨hw, rfl⟩, hlow⟩

/-- The loop of `ENC_SEQ` writes a terminated chain of its working value. -/
theorem encChain_terminated_value {fuel w : Nat} (hw : w < 128 ^ (fuel + 1)) :
    chainTerminated (encChain fuel w) = true ∧ chainValue (encChain fuel w) = w := by
  induction fuel generalizing w with
  | zero => exact final_byte_terminated_value (by simpa using hw)
  | succ fuel ih =>
    rcases Nat.lt_or_ge w 128 with hlt | hge
    · rw [encChain_of_lt _ hlt]
      exact final_byte_terminated_value hlt
    · obtain ⟨hterm, hvalue⟩ := ih (next_work_lt hw)
      rw [encChain_of_ge _ hge, chainTerminated_cons_iff, chainValue, hvalue, toNat_contByte_ofNat]
      exact ⟨.inl ⟨by omega, hterm⟩, by omega⟩

/-- The loop of `ENC_SEQ` writes a terminated chain again from its working value. -/
theorem encChain_chainValue {fuel : Nat} {q : List Byte} (hq : chainTerminated q = true)
    (hfuel : chainValue q < 128 ^ (fuel + 1)) : encChain fuel (chainValue q) = q := by
  induction q generalizing fuel with
  | nil => cases hq
  | cons b bs ih =>
    rw [chainValue] at hfuel ⊢
    rcases chainTerminated_cons_iff.mp hq with ⟨hb, hbs⟩ | ⟨hb, rfl⟩
    · cases fuel with
      | zero => omega
      | succ fuel =>
        have hnext : (b.toNat + 128 * chainValue bs - 128) / 128 = chainValue bs := by omega
        have hbyte : contByte (BitVec.ofNat 7 (b.toNat + 128 * chainValue bs)) = b :=
          BitVec.eq_of_toNat_eq (by rw [toNat_contByte_ofNat]; omega)
        have hbound := next_work_lt hfuel
        rw [hnext] at hbound
        rw [encChain_of_ge _ (by omega), hbyte, hnext, ih hbs hbound]
    · rw [chainValue, Nat.mul_zero, Nat.add_zero, encChain_of_lt _ hb, BitVec.ofNat_toNat, BitVec.setWidth_eq]

/-! `ENC_SEQ` for naturals of any size (spec/42_codec_laws.md R136). -/

/-- The algorithm of `ENC_SEQ` with the fuel of its loop as an argument. -/
def encSeqWith (fuel v : Nat) : List Byte :=
  if v < 240 then [BitVec.ofNat 8 v] else prefixByte (BitVec.ofNat 4 v) :: encChain fuel ((v - 240) / 16)

theorem encSeq_eq_encSeqWith (v : Nat) : encSeq v = encSeqWith 64 v := rfl

theorem encSeqWith_of_lt {v : Nat} (fuel : Nat) (hv : v < 240) : encSeqWith fuel v = [BitVec.ofNat 8 v] :=
  if_pos hv

theorem encSeqWith_of_ge {v : Nat} (fuel : Nat) (hv : 240 ≤ v) :
    encSeqWith fuel v = prefixByte (BitVec.ofNat 4 v) :: encChain fuel ((v - 240) / 16) :=
  if_neg (Nat.not_lt.mpr hv)

/-- What the algorithm writes is a terminated sequence of its value. -/
theorem encSeqWith_terminated_value {fuel v : Nat} (hv : v < 128 ^ (fuel + 1)) :
    terminated (encSeqWith fuel v) = true ∧ natOf (encSeqWith fuel v) = v := by
  rcases Nat.lt_or_ge v 240 with hlt | hge
  · have hlow : (BitVec.ofNat 8 v).toNat = v := Nat.mod_eq_of_lt (by omega)
    rw [encSeqWith_of_lt _ hlt, terminated_cons_iff, natOf_cons, hlow]
    exact ⟨.inr ⟨hlt, rfl⟩, rfl⟩
  · obtain ⟨hterm, hvalue⟩ := encChain_terminated_value (w := (v - 240) / 16) (show _ < 128 ^ (fuel + 1) by omega)
    rw [encSeqWith_of_ge _ hge, terminated_cons_iff, natOf_cons, hvalue, toNat_prefixByte_ofNat]
    exact ⟨.inl ⟨by omega, hterm⟩, by omega⟩

/-- The algorithm writes a terminated sequence again from its natural value. -/
theorem encSeqWith_natOf {fuel : Nat} {q : List Byte} (hq : terminated q = true)
    (hfuel : natOf q < 128 ^ (fuel + 1)) : encSeqWith fuel (natOf q) = q := by
  cases q with
  | nil => cases hq
  | cons b bs =>
    rw [natOf_cons] at hfuel ⊢
    rcases terminated_cons_iff.mp hq with ⟨hb, hbs⟩ | ⟨hb, rfl⟩
    · have hwork : (b.toNat + 16 * chainValue bs - 240) / 16 = chainValue bs := by omega
      have hbyte : prefixByte (BitVec.ofNat 4 (b.toNat + 16 * chainValue bs)) = b :=
        BitVec.eq_of_toNat_eq (by rw [toNat_prefixByte_ofNat]; omega)
      rw [encSeqWith_of_ge _ (by omega), hbyte, hwork, encChain_chainValue hbs (by omega)]
    · rw [chainValue, Nat.mul_zero, Nat.add_zero, encSeqWith_of_lt _ hb, BitVec.ofNat_toNat, BitVec.setWidth_eq]

theorem lt_fuel_self (v : Nat) : v < 128 ^ (v + 1) :=
  (Nat.lt_succ_self v).trans (Nat.lt_pow_self (by decide))

/-- The fuel of `ENC_SEQ` is enough for a 64-bit value. -/
theorem lt_fuel_of_lt {v : Nat} (hv : v < 2 ^ 64) : v < 128 ^ (64 + 1) := hv.trans (by norm_num)

theorem encSeq_terminated {v : Nat} (hv : v < 2 ^ 64) : terminated (encSeq v) = true :=
  (encSeqWith_terminated_value (lt_fuel_of_lt hv)).1

theorem natOf_encSeq {v : Nat} (hv : v < 2 ^ 64) : natOf (encSeq v) = v :=
  (encSeqWith_terminated_value (lt_fuel_of_lt hv)).2

/-- Settles O33: with enough fuel the algorithm of `ENC_SEQ` is the inverse of `NAT` on both sides. -/
theorem naturalValueIsABijection : Obligations.NaturalValueIsABijection := by
  refine ⟨?injective, ?onto, fun v hv => ⟨encSeq_terminated hv, natOf_encSeq hv⟩,
    fun q hq hfit => encSeqWith_natOf hq (lt_fuel_of_lt hfit)⟩
  case injective =>
    intro q q' hq hq' heq
    have hback := encSeqWith_natOf hq' (lt_fuel_self (natOf q'))
    rw [← heq] at hback
    exact (encSeqWith_natOf hq (lt_fuel_self (natOf q))).symm.trans hback
  case onto =>
    intro n
    exact ⟨encSeqWith n n, encSeqWith_terminated_value (lt_fuel_self n)⟩

/-! The length classes (spec/42_codec_laws.md R132 to R134). -/

theorem cap_succ (m : Nat) : cap (m + 1) = 128 + 128 * cap m := rfl

theorem cap_one : cap 1 = 128 := rfl

theorem chainBias_eq_cap (k m : Nat) : chainBias (k + 1) m = 2 ^ shiftOf (k + 1) * cap m := by
  induction m generalizing k with
  | zero => rfl
  | succ m ih =>
    rw [chainBias_succ, ih, two_pow_shiftOf_succ, cap_succ]
    ring

/-- Settles O35: the biases of `n` continuation bytes are `16·CAP(n)`. -/
theorem classMinimaFollowTheRecurrence : Obligations.ClassMinimaFollowTheRecurrence := by
  intro n
  rw [minValue_eq_chainBias, chainBias_eq_cap 0]
  rfl

theorem encChain_length_pos {fuel w : Nat} (hw : w < 128 ^ (fuel + 1)) : 0 < (encChain fuel w).length :=
  length_pos_of_chainTerminated (encChain_terminated_value hw).1

theorem eq_zero_iff_cap_of_lt {w : Nat} (hw : w < 128) (m : Nat) : m = 0 ↔ cap m ≤ w ∧ w < cap (m + 1) := by
  cases m with
  | zero => simpa [cap] using hw
  | succ m =>
    rw [cap_succ]
    omega

/-- A chain of `m + 1` bytes is written exactly for `CAP(m) ≤ w < CAP(m + 1)`. -/
theorem encChain_length_eq_iff {fuel w : Nat} (m : Nat) (hw : w < 128 ^ (fuel + 1)) :
    (encChain fuel w).length = m + 1 ↔ cap m ≤ w ∧ w < cap (m + 1) := by
  induction fuel generalizing w m with
  | zero =>
    rw [← eq_zero_iff_cap_of_lt (by simpa using hw)]
    simp [encChain]
  | succ fuel ih =>
    rcases Nat.lt_or_ge w 128 with hlt | hge
    · rw [← eq_zero_iff_cap_of_lt hlt, encChain_of_lt _ hlt]
      simp
    · have hnext := next_work_lt hw
      rw [encChain_of_ge _ hge, List.length_cons, Nat.add_left_inj]
      cases m with
      | zero =>
        have hpos := encChain_length_pos hnext
        rw [cap_one]
        omega
      | succ m =>
        rw [ih m hnext, cap_succ (m + 1), cap_succ m]
        omega

theorem minValue_one : minValue 1 = 0 := rfl

theorem minValue_two : minValue 2 = 240 := rfl

/-- The length of the encoding is `n` exactly in the class of `n`. -/
theorem encSeq_length_eq_iff {v : Nat} (hv : v < 2 ^ 64) (n : Nat) :
    (encSeq v).length = n ↔ 1 ≤ n ∧ minValue n ≤ v ∧ v < minValue (n + 1) := by
  have hmin := classMinimaFollowTheRecurrence
  rw [encSeq_eq_encSeqWith]
  rcases Nat.lt_or_ge v 240 with hlt | hge
  · rw [encSeqWith_of_lt _ hlt, List.length_singleton]
    match n with
    | 0 => simp
    | 1 => simp [minValue_one, minValue_two, hlt]
    | n + 2 =>
      rw [hmin n]
      omega
  · have hwork : (v - 240) / 16 < 128 ^ (64 + 1) := (by omega : _ ≤ v).trans_lt (lt_fuel_of_lt hv)
    rw [encSeqWith_of_ge _ hge, List.length_cons]
    match n with
    | 0 => simp
    | 1 =>
      have hpos := encChain_length_pos hwork
      rw [minValue_two]
      omega
    | n + 2 =>
      rw [Nat.add_left_inj, encChain_length_eq_iff n hwork, hmin n, hmin (n + 1)]
      omega

/-- Settles O34: a value lies in the class of its length, and no length exceeds 10. -/
theorem lengthClassesAreExact : Obligations.LengthClassesAreExact :=
  ⟨fun v n hv => ⟨encSeq_length_eq_iff hv n, encSeq_length_pos v, encSeq_length_le hv⟩, by decide⟩

theorem minValue_mono : Monotone minValue := by
  refine monotone_nat_of_le_succ fun n => ?_
  match n with
  | 0 => exact Nat.le_refl 0
  | 1 => exact Nat.zero_le _
  | n + 2 => simp [minValue, List.range_succ]

/-- The length of the encoding is at least `n` exactly from `MIN(n)` on. -/
theorem le_encSeq_length_iff {v n : Nat} (hv : v < 2 ^ 64) : n ≤ (encSeq v).length ↔ minValue n ≤ v := by
  obtain ⟨-, hmin, hmax⟩ := (encSeq_length_eq_iff hv _).mp rfl
  constructor
  · exact fun hn => (minValue_mono hn).trans hmin
  · intro hn
    by_contra hlt
    have hnext : minValue ((encSeq v).length + 1) ≤ minValue n := minValue_mono (Nat.lt_of_not_le hlt)
    omega

theorem encSeq_length_mono {v v' : Nat} (hle : v ≤ v') (hv' : v' < 2 ^ 64) :
    (encSeq v).length ≤ (encSeq v').length :=
  (le_encSeq_length_iff hv').mpr (((le_encSeq_length_iff (hle.trans_lt hv')).mp le_rfl).trans hle)

/-- Settles O36: the length passes `n` where the value reaches `MIN(n)`. -/
theorem lengthIsMonotone : Obligations.LengthIsMonotone := by
  refine ⟨fun v v' hle hv' => encSeq_length_mono hle hv', fun v hv => ⟨?toMinimum, ?fromMinimum⟩⟩
  case toMinimum =>
    intro hne
    have hmin := (le_encSeq_length_iff hv).mp le_rfl
    have hrise := encSeq_length_mono (Nat.le_add_right v 1) hv
    have hnot : ¬ minValue (encSeq (v + 1)).length ≤ v := by
      rw [← le_encSeq_length_iff (Nat.lt_of_succ_lt hv)]
      omega
    have hpos := encSeq_length_pos v
    exact ⟨(encSeq (v + 1)).length, by omega, encSeq_length_le hv, by omega⟩
  case fromMinimum =>
    rintro ⟨n, -, -, hmin⟩ heq
    have hreach := (le_encSeq_length_iff hv).mpr hmin.ge
    rw [heq, le_encSeq_length_iff (Nat.lt_of_succ_lt hv)] at hreach
    omega

end Sys2Proof.Machine
end

section
/-! SUPPORT. What `DECODE` answers by the terminated sequence that stands at the front of its range, or by there
being none; the statements of spec/42_codec_laws.md sections 1 and 4. -/

namespace Sys2Proof.Machine

/-! Slices of `MEM`. -/

theorem memSlice_add (m : Memory) (a i j : Nat) :
    memSlice m a (i + j) = memSlice m a i ++ memSlice m (a + i) j := by
  simp [memSlice, List.range_add, Function.comp_def, Nat.add_assoc]

theorem memSlice_prefix (m : Memory) (a : Nat) {i j : Nat} (hij : i ≤ j) :
    memSlice m a i <+: memSlice m a j := by
  rw [← Nat.add_sub_cancel' hij, memSlice_add]
  exact List.prefix_append _ _

/-- The middle part of a slice stands after its front part. -/
theorem memSlice_middle {m : Memory} {a n : Nat} {front middle back : List Byte}
    (h : memSlice m a n = front ++ (middle ++ back)) :
    memSlice m (a + front.length) middle.length = middle := by
  have hn : n = front.length + (middle.length + back.length) := by simpa using congrArg List.length h
  rw [hn, memSlice_add, memSlice_add] at h
  obtain ⟨-, hrest⟩ := List.append_inj h (memSlice_length ..)
  exact (List.append_inj hrest (memSlice_length ..)).1

theorem memRead_eq_of_memSlice_eq {m m' : Memory} {a n x : Nat} (h : memSlice m' a n = memSlice m a n)
    (hax : a ≤ x) (hxn : x < a + n) : memRead m' x = memRead m x := by
  have hbyte := List.map_inj_left.mp h (x - a) (List.mem_range.mpr (by omega))
  rwa [Nat.add_sub_cancel' hax] at hbyte

/-- At most one slice from an address is a terminated sequence (spec/42_codec_laws.md R137). -/
theorem length_unique_of_terminated {m : Memory} {a i j : Nat} (hi : terminated (memSlice m a i) = true)
    (hj : terminated (memSlice m a j) = true) : i = j := by
  have hslice : memSlice m a i = memSlice m a j := by
    rcases Nat.le_total i j with hij | hji
    · exact terminatedSequencesArePrefixFree _ _ hi hj (memSlice_prefix m a hij)
    · exact (terminatedSequencesArePrefixFree _ _ hj hi (memSlice_prefix m a hji)).symm
  simpa using congrArg List.length hslice

/-! The range holds no terminated sequence. -/

section
variable {m : Memory} {a e : Nat} (hnone : ∀ l, a + l ≤ e + 1 → terminated (memSlice m a l) = false)
include hnone

theorem decodeRange_oob_of_none (o : DecOvf) (stale : Word) (draws : Nat) :
    (decodeRange o m a e stale draws).status = .oob := by
  rcases decodeRange_end o m a e stale draws with ⟨hok, -⟩ | ⟨hoob, -⟩
  · obtain ⟨hn, hq⟩ := (decodeRange_ok_iff ..).mp ⟨hok, rfl⟩
    rw [hnone _ (by omega)] at hq
    cases hq
  · exact hoob

/-- Then `DECODE` reads the whole range. -/
theorem decodeReads_of_none : decodeReads m a e = (List.range (e + 1 - a)).map (a + ·) := by
  have hoob := decodeRange_oob_of_none hnone .wrap 0#64 0
  rw [decodeReads_eq_range', decodeReads_length .wrap m a e 0#64 0, hoob, List.range'_eq_map_range]
  rfl

end

/-- `DECODE` at rest fails if its range begins with no terminated sequence. -/
theorem exec_decode_outOfBounds {s : State} {a e : Nat} (hrest : s.dec.st = .idle ∨ s.dec.st = .done)
    (ha : a < 2 ^ s.params.aw) (he : e < 2 ^ s.params.aw)
    (hnone : ∀ l, a + l ≤ e + 1 → terminated (memSlice s.mem a l) = false) :
    ∃ t, exec (.decode a e) s = .next t ∧ decResponse? t.dec = some .outOfBounds := by
  obtain ⟨t, ht, hresp⟩ := exec_decode_response hrest ha he
  refine ⟨t, ht, ?_⟩
  rw [hresp, DecodeEnd.response, decodeRange_oob_of_none hnone]

/-- An empty range holds no sequence. -/
theorem no_sequence_of_empty (m : Memory) {a e : Nat} (hempty : e < a) (l : Nat) (hl : a + l ≤ e + 1) :
    terminated (memSlice m a l) = false := by
  obtain rfl : l = 0 := by omega
  rfl

/-- A range that ends before the last byte of a terminated sequence holds none (spec/42_codec_laws.md R138). -/
theorem no_sequence_of_truncated {m : Memory} {a e l : Nat} (hq : terminated (memSlice m a l) = true)
    (hshort : e + 1 < a + l) (i : Nat) (hi : a + i ≤ e + 1) : terminated (memSlice m a i) = false := by
  refine Bool.eq_false_iff.mpr fun hi' => ?_
  have hil := length_unique_of_terminated hi' hq
  omega

/-- Settles O25: neither a truncated nor an empty range holds a terminated sequence. -/
theorem truncatedSequenceIsOutOfBounds : Obligations.TruncatedSequenceIsOutOfBounds := by
  intro a e s hrest ha he
  refine ⟨fun l hq hshort => ?truncated, fun hempty => ?empty⟩
  case truncated =>
    have hnone := no_sequence_of_truncated hq hshort
    obtain ⟨t, ht, hresp⟩ := exec_decode_outOfBounds hrest ha he hnone
    exact ⟨t, ht, hresp, decodeReads_of_none hnone⟩
  case empty =>
    obtain ⟨t, ht, hresp⟩ := exec_decode_outOfBounds hrest ha he (no_sequence_of_empty s.mem hempty)
    exact ⟨t, ht, hresp, if_pos hempty⟩

/-! The range holds a terminated sequence. -/

/-- The sequence is not empty, so its address is one of the range. -/
theorem start_le_of_terminated {m : Memory} {a e l : Nat} (hq : terminated (memSlice m a l) = true)
    (hl : a + l ≤ e + 1) : a ≤ e := by
  cases l with
  | zero => cases hq
  | succ n => omega

/-- The loop goes no further than the final byte, however many bytes are left of the range. -/
theorem decodeLoop_eq_of_chainTerminated (o : DecOvf) {m : Memory} {start left k n : Nat} (acc : Word)
    (draws : Nat) (hn : n < left) (hq : chainTerminated (memSlice m (start + k) (n + 1)) = true) :
    decodeLoop o m start left k acc draws = decodeLoop o m start (n + 1) k acc draws := by
  induction left generalizing k acc draws n with
  | zero => exact absurd hn (Nat.not_lt_zero n)
  | succ left ih =>
    rcases Nat.lt_or_ge (memRead m (start + k)).toNat 128 with hb | hb
    · rw [decodeLoop_of_lt _ _ _ _ hb, decodeLoop_of_lt _ _ _ _ hb]
    · rw [chainTerminated_memSlice_of_ge hb] at hq
      cases n with
      | zero => cases hq
      | succ n =>
        rw [decodeLoop_of_ge _ _ _ _ hb, decodeLoop_of_ge _ _ _ _ hb]
        exact ih _ _ (Nat.lt_of_succ_lt_succ hn) hq

/-- `DECODE` goes no further than the last byte of the sequence, whatever the end of its range. -/
theorem decodeRange_eq_of_terminated (o : DecOvf) {m : Memory} {start last n : Nat} (stale : Word) (draws : Nat)
    (hn : start + n ≤ last) (hq : terminated (memSlice m start (n + 1)) = true) :
    decodeRange o m start last stale draws = decodeRange o m start (start + n) stale draws := by
  have hin : start ≤ last := by omega
  have hin' : start ≤ start + n := Nat.le_add_right start n
  rcases Nat.lt_or_ge (memRead m start).toNat 240 with hb | hb
  · rw [decodeRange_of_lt _ _ _ hin hb, decodeRange_of_lt _ _ _ hin' hb]
  · rw [terminated_memSlice_of_ge hb] at hq
    cases n with
    | zero => cases hq
    | succ n =>
      rw [decodeRange_of_ge _ _ _ hin hb, decodeRange_of_ge _ _ _ hin' hb,
        decodeLoop_eq_of_chainTerminated o _ draws (show n < last - start by omega) hq, Nat.add_sub_cancel_left]

/-- `DECODE` reads the bytes of the sequence and no other. -/
theorem decodeReads_of_terminated {m : Memory} {a e l : Nat} (hq : terminated (memSlice m a l) = true)
    (hl : a + l ≤ e + 1) : decodeReads m a e = (List.range l).map (a + ·) := by
  cases l with
  | zero => cases hq
  | succ n =>
    obtain ⟨hok, hoff⟩ := (decodeRange_ok_iff .wrap m a e 0#64 0 n).mpr ⟨by omega, hq⟩
    rw [decodeReads_eq_range', decodeReads_length .wrap m a e 0#64 0, if_pos hok, hoff, List.range'_eq_map_range]

/-- The response is the same for any two ranges and memories that hold the sequence. -/
theorem decodeRange_response_of_terminated (o : DecOvf) {m m' : Memory} {a e e' l : Nat} (stale stale' : Word)
    (draws : Nat) (hq : terminated (memSlice m a l) = true) (hmem : memSlice m' a l = memSlice m a l)
    (hl : a + l ≤ e + 1) (hl' : a + l ≤ e' + 1) :
    (decodeRange o m a e stale draws).response = (decodeRange o m' a e' stale' draws).response := by
  cases l with
  | zero => cases hq
  | succ n =>
    rw [decodeRange_eq_of_terminated o stale draws (show a + n ≤ e by omega) hq,
      decodeRange_eq_of_terminated o stale' draws (show a + n ≤ e' by omega) (hmem.symm ▸ hq)]
    exact (decodeRange_response_congr stale stale' (.inr rfl)
      fun x hlo hhi => memRead_eq_of_memSlice_eq hmem hlo (by omega)).symm

/-- Settles O26: `DECODE` stops at the last byte of the sequence, so it reads its bytes alone. -/
theorem trailingBytesDoNotMatter : Obligations.TrailingBytesDoNotMatter := by
  intro a e e' l s s' hrest hrest' hparams hdraws he he' hq hmem hl hl'
  have ha := (start_le_of_terminated hq hl).trans_lt he
  obtain ⟨t, ht, hresp⟩ := exec_decode_response hrest ha he
  obtain ⟨t', ht', hresp'⟩ := exec_decode_response hrest' (hparams ▸ ha) (hparams ▸ he')
  refine ⟨decodeReads_of_terminated hq hl, t, t', ht, ht', ?_⟩
  rw [hresp, hresp', hparams, hdraws, decodeRange_response_of_terminated _ _ _ _ hq hmem hl hl']

/-! The round trip (spec/42_codec_laws.md R130). -/

/-- Settles O29: the encoding is a terminated sequence of natural value `v`, which fits 64 bits. -/
theorem decodeOfAnEncodingReturnsTheValue : Obligations.DecodeOfAnEncodingReturnsTheValue := by
  intro v a e s hrest he hl hmem
  have hq : terminated (memSlice s.mem a (encSeq v.toNat).length) = true := by
    rw [hmem]
    exact encSeq_terminated v.isLt
  have hvalue : natOf (memSlice s.mem a (encSeq v.toNat).length) = v.toNat := by
    rw [hmem, natOf_encSeq v.isLt]
  have ha := (start_le_of_terminated hq hl).trans_lt he
  obtain ⟨d, n, hexec, hst, -, -, hsequence, -⟩ := decodeReturnsTheSequenceOfItsRange a e s hrest ha he
  obtain ⟨hok, hcount, hacc⟩ := hsequence _ hl hq
  obtain ⟨-, hsum⟩ := hacc (.inr (hvalue.trans_lt v.isLt))
  have hword : d.acc = v := BitVec.eq_of_toNat_eq (by rw [hsum, hvalue]; exact Nat.mod_eq_of_lt v.isLt)
  exact ⟨_, hexec, by simp [decResponse?, hst, hok, hcount, hword]⟩

/-- Settles O30: the copy places the response of `ENCODE` in `MEM`, and touches neither unit. -/
theorem encodeCopyDecodeReturnsTheValue : Obligations.EncodeCopyDecodeReturnsTheValue := by
  intro v a e s hencRest hdecRest hwf he hl
  obtain ⟨t, ht, hresp⟩ := exec_encode_response v hencRest
  obtain ⟨⟨x, rfl⟩, -⟩ := exec_encoderRows_next (.inr ⟨v, .inl rfl⟩) ht
  have hslice := memSlice_memWriteList (bytes := encSeq v.toNat) hwf (hl.trans (Nat.succ_le_of_lt he))
  obtain ⟨u, hu, hvalue⟩ := decodeOfAnEncodingReturnsTheValue v a e
    ((s.withEnc x).withMem (memWriteList s.mem a (encSeq v.toNat))) hdecRest he hl hslice
  exact ⟨_, u, _, ht, hresp, hu, hvalue⟩

/-- Settles O31: each encoding is a slice of the range where the ones before it end, and past the last one the range
is empty. -/
theorem streamOfEncodingsDecodesInTurn : Obligations.StreamOfEncodingsDecodesInTurn := by
  intro vs a e s hrest he hle hstream
  refine ⟨?inTurn, fun hend =>
    exec_decode_outOfBounds hrest hend he (no_sequence_of_empty s.mem (Nat.lt_succ_self e))⟩
  case inTurn =>
    rintro before after v rfl
    rw [List.flatMap_append, List.flatMap_cons] at hstream
    have hlength := congrArg List.length hstream
    rw [memSlice_length, List.length_append, List.length_append] at hlength
    exact decodeOfAnEncodingReturnsTheValue v _ e s hrest he (by omega) (memSlice_middle hstream)

end Sys2Proof.Machine
end

section
/-! SUPPORT. What each row can do to `DEC.STATUS`; the statements of spec/60_exceptions.md. -/

namespace Sys2Proof.Machine

/-! The handlers of a byte leave the status: no byte of any value raises (spec/60_exceptions.md R153). -/

section
variable {b : Byte} {s t : State}

theorem takeSingle_status (h : takeSingle b s = .next t) : t.dec.status = s.dec.status := by
  obtain ⟨-, -, -, rfl⟩ := takeSingle_next h
  rfl

theorem takePrefix_status (h : takePrefix b s = .next t) : t.dec.status = s.dec.status := by
  obtain ⟨-, -, -, rfl⟩ := takePrefix_next h
  rfl

theorem takeCont_status (h : takeCont b s = .next t) : t.dec.status = s.dec.status := by
  obtain ⟨-, -, -, rfl⟩ := takeCont_next h
  rfl

theorem takeFinal_status (h : takeFinal b s = .next t) : t.dec.status = s.dec.status := by
  obtain ⟨-, -, -, rfl⟩ := takeFinal_next h
  rfl

end

/-- `DECODE` fails exactly on a range that begins with no terminated sequence. -/
theorem decodeRange_oob_iff (o : DecOvf) (m : Memory) (a e : Nat) (stale : Word) (draws : Nat) :
    (decodeRange o m a e stale draws).status = .oob ↔
      ∀ l, a + l ≤ e + 1 → terminated (memSlice m a l) = false := by
  refine ⟨fun hoob l hl => ?_, fun hnone => decodeRange_oob_of_none hnone o stale draws⟩
  cases l with
  | zero => rfl
  | succ n =>
    refine Bool.eq_false_iff.mpr fun hq => ?_
    obtain ⟨hok, -⟩ := (decodeRange_ok_iff o m a e stale draws n).mpr ⟨by omega, hq⟩
    rw [hoob] at hok
    cases hok

/-- The rows that write `DEC.STATUS`: the two raising steps past the end of the range, and the two requests
(spec/60_exceptions.md R150, R157). -/
theorem exec_status_next {i : Instr} {s t : State} (h : exec i s = .next t) :
    t.dec.status = s.dec.status ∨
      (i = .decOob0 ∧ s.dec.last < s.dec.start) ∨
      (i = .decOobk ∧ s.dec.last < s.dec.start + s.dec.off) ∨
      (∃ a e, i = .decStart a e ∧ t.dec.status = .ok) ∨
      ∃ a e, i = .decode a e ∧
        t.dec.status = (decodeRange s.params.decOvf s.mem a e s.dec.acc s.draws).status := by
  by_cases hi : encoderRows i
  · obtain ⟨⟨x, rfl⟩, -⟩ := exec_encoderRows_next hi h
    exact .inl rfl
  cases i with
  | encode v => exact absurd (.inr ⟨v, .inl rfl⟩) hi
  | encStart v => exact absurd (.inr ⟨v, .inr rfl⟩) hi
  | encSingle | encPrefix | encCont | encFinal => exact absurd (.inl (by simp)) hi
  | decode a e =>
    obtain ⟨-, -, -, rfl⟩ := execDecode_next h
    exact .inr (.inr (.inr (.inr ⟨a, e, rfl, rfl⟩)))
  | decStart a e =>
    obtain ⟨-, -, -, rfl⟩ := execDecStart_next h
    exact .inr (.inr (.inr (.inl ⟨a, e, rfl, rfl⟩)))
  | decOob0 =>
    obtain ⟨-, hout, -⟩ := execDecOob0_next h
    exact .inr (.inl ⟨rfl, hout⟩)
  | decOobk =>
    obtain ⟨-, hout, -⟩ := execDecOobk_next h
    exact .inr (.inr (.inl ⟨rfl, hout⟩))
  | decSingle => exact .inl (takeSingle_status (execDecSingle_next h).2)
  | decPrefix => exact .inl (takePrefix_status (execDecPrefix_next h).2)
  | decCont => exact .inl (takeCont_status (execDecCont_next h).2)
  | decFinal => exact .inl (takeFinal_status (execDecFinal_next h).2)
  | byteSingleA v | byteSingleB v | byteSingleC v | byteSingleD v => exact .inl (takeSingle_status h)
  | bytePrefix n => exact .inl (takePrefix_status h)
  | byteCont p => exact .inl (takeCont_status h)
  | byteFinal p => exact .inl (takeFinal_status h)

/-- Settles O47: of the rows that write the status, `DEC.START` leaves it `OK`, and `DECODE` fails only where no
sequence begins. -/
theorem onlyBoundsExhaustionRaises : Obligations.OnlyBoundsExhaustionRaises := by
  intro i s t h hok hoob
  rcases exec_status_next h with hkept | hoob0 | hoobk | ⟨a, e, -, hstart⟩ | ⟨a, e, rfl, hrange⟩
  · rw [hoob, hok] at hkept
    cases hkept
  · exact .inl hoob0
  · exact .inr (.inl hoobk)
  · rw [hoob] at hstart
    cases hstart
  · exact .inr (.inr ⟨a, e, rfl, (decodeRange_oob_iff ..).mp (hrange.symm.trans hoob)⟩)

/-- Settles O48: the registers of `DEC`, the status among them, stand from `DONE` until its next request. -/
theorem failureEndsWithTheNextRequest : Obligations.FailureEndsWithTheNextRequest := by
  intro i s t hdone hoob h hok
  by_contra hreq
  have hnoRequest (a e : Nat) : i ≠ .decode a e ∧ i ≠ .decStart a e :=
    ⟨fun hi => hreq ⟨a, e, .inr hi⟩, fun hi => hreq ⟨a, e, .inl hi⟩⟩
  have hstands : t.dec = s.dec := (responsesStandUntilTheNextRequest i s t h).2 hdone hnoRequest
  rw [hstands, hoob] at hok
  cases hok

end Sys2Proof.Machine
end

section
/-! SUPPORT. What the host does with its requests and with reset, and from how many moves on a unit is in `DONE`;
the statements of spec/70_reset_and_hazards.md. -/

namespace Sys2Proof.Machine

/-! A unit at rest and a busy one (spec/10_state.md R40, R41). -/

theorem encAtRest_of_busy {e : Enc} (hbusy : e.st = .first ∨ e.st = .chain) : ¬ encAtRest e = true := by
  rw [encAtRest_iff]
  rcases hbusy with hst | hst <;> simp [hst]

theorem decAtRest_of_busy {d : Dec} (hbusy : d.st = .first ∨ d.st = .accum) : ¬ decAtRest d = true := by
  rw [decAtRest_iff]
  rcases hbusy with hst | hst <;> simp [hst]

/-- Settles O49: both operations ask first whether the unit is at rest. -/
theorem busyUnitTakesNoOperation : Obligations.BusyUnitTakesNoOperation :=
  ⟨fun _ _ hbusy => if_neg (encAtRest_of_busy hbusy), fun _ _ _ hbusy => if_neg (decAtRest_of_busy hbusy)⟩

/-! The host's requests (spec/70_reset_and_hazards.md R176, R177). -/

theorem hostMove_enc {s : State} {v : Word} {rest : List HostAction} (hscript : s.script = .enc v :: rest) :
    agentMove .host s = if encAtRest s.enc then exec (.encStart v) (s.withScript rest) else .next s := by
  simp [agentMove, hostMove, hscript]

theorem hostMove_dec {s : State} {a e : Nat} {rest : List HostAction} (hscript : s.script = .dec a e :: rest) :
    agentMove .host s = if decAtRest s.dec then exec (.decStart a e) (s.withScript rest) else .next s := by
  simp [agentMove, hostMove, hscript]

/-- Settles O58: the move of each request asks whether its unit is at rest. -/
theorem hostRequestsWaitForTheUnit : Obligations.HostRequestsWaitForTheUnit := by
  refine ⟨fun v rest s hscript => ?enc, fun a e rest s hscript => ?dec⟩
  case enc =>
    rw [hostMove_enc hscript]
    exact ⟨fun hrest => if_pos ((encAtRest_iff _).mpr hrest), fun hbusy => if_neg (encAtRest_of_busy hbusy)⟩
  case dec =>
    rw [hostMove_dec hscript]
    exact ⟨fun hrest => if_pos ((decAtRest_iff _).mpr hrest), fun hbusy => if_neg (decAtRest_of_busy hbusy)⟩

/-! The host's reset (spec/70_reset_and_hazards.md R170). -/

theorem hostMove_reset {s : State} {rest : List HostAction} (hscript : s.script = .reset :: rest) :
    agentMove .host s = .next (resetUnits (s.withScript rest)) := by
  simp [agentMove, hostMove, hscript]

theorem encResponse?_of_idle {e : Enc} (hst : e.st = .idle) : encResponse? e = none := by
  simp [encResponse?, hst]

theorem decResponse?_of_idle {d : Dec} (hst : d.st = .idle) : decResponse? d = none := by
  simp [decResponse?, hst]

/-- Settles O57: reset leaves both units in `IDLE`, in which neither has a response. -/
theorem hostResetAbandonsOperations : Obligations.HostResetAbandonsOperations :=
  fun _ _ hscript => ⟨_, hostMove_reset hscript, rfl, rfl, rfl, rfl, rfl, encResponse?_of_idle rfl,
    decResponse?_of_idle rfl, rfl, rfl, rfl⟩

/-! Progress (spec/70_reset_and_hazards.md R179). -/

/-- The bound of R98 on the working value is one on the bytes that remain: they fit `OBUF`. -/
theorem encChain_fits_obuf {e : Enc} (hst : e.st = .chain) (hinv : encInv e = true) :
    e.idx.toNat + (encChain 64 e.w.toNat).length ≤ 10 := by
  obtain ⟨-, hidx, hbound⟩ := (encInv_chain_iff hst).mp hinv
  have hpow : 2 ^ (67 - 7 * e.idx.toNat) ≤ 128 ^ (9 - e.idx.toNat + 1) :=
    calc 2 ^ (67 - 7 * e.idx.toNat)
      _ ≤ 2 ^ (7 * (9 - e.idx.toNat + 1)) := Nat.pow_le_pow_right (by decide) (by omega)
      _ = 128 ^ (9 - e.idx.toNat + 1) := Nat.pow_mul 2 7 _
  have hlen := encChain_length_le 64 (hbound.trans_le hpow)
  omega

/-- Settles O51: the runs of `ENC` and of `DEC` from each busy state end in `DONE`, and the invariant bounds the bytes
they have left. -/
theorem busyUnitsReachDone : Obligations.BusyUnitsReachDone := by
  intro s hinv
  obtain ⟨-, henc, hdec⟩ := (inv_iff s).mp hinv
  have hlast := last_lt_of_decInv hdec
  refine ⟨?enc, ?dec⟩
  case enc =>
    rintro (hst | hst)
    · have hidx := (encInv_first_iff hst).mp henc
      exact ⟨_, _, encSeq_length_le s.enc.w.isLt, agentRun_enc_first hst hidx le_rfl, rfl⟩
    · have hfit := encChain_fits_obuf hst henc
      have hfuel : s.enc.w.toNat < 128 ^ (64 + 1) := s.enc.w.isLt.trans (by decide)
      exact ⟨_, _, (Nat.le_add_left _ _).trans hfit, agentRun_enc_chain hst hfuel hfit le_rfl, rfl⟩
  case dec =>
    rintro (hst | hst)
    · obtain ⟨-, hoff, hok⟩ := (decInv_first_iff hst).mp hdec
      rw [hoff]
      exact ⟨_, _, le_rfl, agentRun_dec_first hlast hst hoff hok le_rfl, rfl⟩
    · obtain ⟨-, -, hle, hok⟩ := (decInv_accum_iff hst).mp hdec
      exact ⟨_, _, le_rfl, agentRun_dec_accum hlast hst hok (Nat.add_sub_of_le hle) le_rfl, rfl⟩

/-! Counts of moves (spec/70_reset_and_hazards.md R178). -/

/-- The moves of `a` from `s` all answer, and lead to `done` from the `k`-th on and not before. -/
def DoneExactlyFrom (a : Agent) (done : State → Prop) (k : Nat) (s : State) : Prop :=
  ∀ n, ∃ u, agentRun a n s = .next u ∧ (done u ↔ k ≤ n)

theorem doneExactlyFrom_zero {a : Agent} {done : State → Prop} {s : State} (hdone : done s)
    (hstay : ∀ n, agentRun a n s = .next s) : DoneExactlyFrom a done 0 s :=
  fun n => ⟨s, hstay n, iff_of_true hdone (Nat.zero_le n)⟩

/-- A move from a state that is not `done` counts as one. -/
theorem doneExactlyFrom_succ {a : Agent} {done : State → Prop} {k : Nat} {s t : State} (hbusy : ¬ done s)
    (hmove : agentMove a s = .next t) (ht : DoneExactlyFrom a done k t) : DoneExactlyFrom a done (k + 1) s := by
  intro n
  cases n with
  | zero => exact ⟨s, rfl, iff_of_false hbusy (Nat.not_succ_le_zero k)⟩
  | succ n =>
    rw [agentRun_succ hmove, Nat.succ_le_succ_iff]
    exact ht n

/-- `ENC` has its response. -/
def EncDone (s : State) : Prop := s.enc.st = .done

/-- `DEC` has its response. -/
def DecDone (s : State) : Prop := s.dec.st = .done

theorem not_encDone_of_busy {s : State} (hbusy : s.enc.st = .first ∨ s.enc.st = .chain) : ¬ EncDone s :=
  fun hdone => encAtRest_of_busy hbusy ((encAtRest_iff _).mpr (.inr hdone))

theorem not_decDone_of_busy {s : State} (hbusy : s.dec.st = .first ∨ s.dec.st = .accum) : ¬ DecDone s :=
  fun hdone => decAtRest_of_busy hbusy ((decAtRest_iff _).mpr (.inr hdone))

theorem encDone_exactlyFrom_zero {s : State} (hdone : EncDone s) : DoneExactlyFrom .enc EncDone 0 s :=
  doneExactlyFrom_zero hdone (agentRun_enc_of_done hdone)

theorem decDone_exactlyFrom_zero {s : State} (hdone : DecDone s) : DoneExactlyFrom .dec DecDone 0 s :=
  doneExactlyFrom_zero hdone (agentRun_dec_of_done hdone)

/-- With less than 128 left the final byte is the only move from `CHAIN`. -/
theorem encDone_exactlyFrom_final {s : State} (hst : s.enc.st = .chain) (hi : s.enc.idx.toNat < 10)
    (hw : s.enc.w.toNat < 128) : DoneExactlyFrom .enc EncDone 1 s :=
  doneExactlyFrom_succ (not_encDone_of_busy (.inr hst))
    ((encMove_of_enabled (encEnabled_chain_of_lt hst hw)).trans (exec_encFinal_of_lt hi hst hw))
    (encDone_exactlyFrom_zero rfl)

/-- From `CHAIN` the moves are the bytes of the loop of `ENC_SEQ`. -/
theorem encDone_exactlyFrom_chain {fuel : Nat} {s : State} (hst : s.enc.st = .chain)
    (hfuel : s.enc.w.toNat < 128 ^ (fuel + 1))
    (hfit : s.enc.idx.toNat + (encChain fuel s.enc.w.toNat).length ≤ 10) :
    DoneExactlyFrom .enc EncDone (encChain fuel s.enc.w.toNat).length s := by
  induction fuel generalizing s with
  | zero => exact encDone_exactlyFrom_final hst hfit hfuel
  | succ fuel ih =>
    rcases Nat.lt_or_ge s.enc.w.toNat 128 with hw | hw
    · rw [encChain_of_lt _ hw] at hfit ⊢
      exact encDone_exactlyFrom_final hst hfit hw
    · rw [encChain_of_ge _ hw, ← workAfterCont_toNat hw, List.length_cons] at hfit ⊢
      have hi : s.enc.idx.toNat < 10 := by omega
      have hmove := (encMove_of_enabled (encEnabled_chain_of_ge hst hw)).trans (exec_encCont_of_ge hi hst hw)
      refine doneExactlyFrom_succ (not_encDone_of_busy (.inr hst)) hmove (ih rfl ?fuel ?fit)
      case fuel =>
        simp only [State.withEnc_enc, workAfterCont_toNat hw]
        exact next_work_lt hfuel
      case fit =>
        simp only [State.withEnc_enc, toNat_idx_succ hi]
        omega

theorem encSeq_length_of_lt {v : Nat} (hv : v < 240) : (encSeq v).length = 1 := by
  simp [encSeq, hv]

theorem encSeq_length_of_ge {w : Word} (hw : 240 ≤ w.toNat) :
    (encSeq w.toNat).length = (encChain 64 (workAfterPrefix w).toNat).length + 1 := by
  simp [encSeq, Nat.not_lt.mpr hw, workAfterPrefix_toNat hw]

/-- From `FIRST` the moves are the bytes of `ENC_SEQ`. -/
theorem encDone_exactlyFrom_first {s : State} (hst : s.enc.st = .first) :
    DoneExactlyFrom .enc EncDone (encSeq s.enc.w.toNat).length s := by
  have hbusy := not_encDone_of_busy (.inl hst)
  have hlen := encSeq_length_le s.enc.w.isLt
  rcases Nat.lt_or_ge s.enc.w.toNat 240 with hw | hw
  · have hmove := (encMove_of_enabled (encEnabled_first_of_lt hst hw)).trans (exec_encSingle_of_lt hst hw)
    rw [encSeq_length_of_lt hw]
    exact doneExactlyFrom_succ hbusy hmove (encDone_exactlyFrom_zero rfl)
  · have hmove := (encMove_of_enabled (encEnabled_first_of_ge hst hw)).trans (exec_encPrefix_of_ge hst hw)
    have hfuel : (workAfterPrefix s.enc.w).toNat < 128 ^ (64 + 1) :=
      (workAfterPrefix s.enc.w).isLt.trans (by decide)
    rw [encSeq_length_of_ge hw] at hlen ⊢
    exact doneExactlyFrom_succ hbusy hmove
      (encDone_exactlyFrom_chain rfl hfuel (by rw [Nat.add_comm]; exact hlen))

/-- From `ACCUM` the moves take the offset to where the loop of `DECODE` ends, and the last one, for the final byte
or for the failed bounds test, leaves it there. -/
theorem decDone_exactlyFrom_accum {left k : Nat} {s : State} (hlast : s.dec.last < 2 ^ s.params.aw)
    (hst : s.dec.st = .accum) (hleft : s.dec.start + s.dec.off + left = s.dec.last + 1)
    (hk : (decodeLoop s.params.decOvf s.mem s.dec.start left s.dec.off s.dec.acc s.draws).off = s.dec.off + k) :
    DoneExactlyFrom .dec DecDone (k + 1) s := by
  induction left generalizing s k with
  | zero =>
    obtain rfl : k = 0 := Nat.left_eq_add.mp hk
    have hout : s.dec.last < s.dec.start + s.dec.off := hleft.ge
    have hmove := (decMove_of_fetch (decFetch_accum_of_oob hst hout)).trans (exec_decOobk_of_out hst hout)
    exact doneExactlyFrom_succ (not_decDone_of_busy (.inr hst)) hmove (decDone_exactlyFrom_zero rfl)
  | succ left ih =>
    have hin : s.dec.start + s.dec.off ≤ s.dec.last := by omega
    have hfetch := (decFetch_accum_of_inb hst hin).trans (decFetchAt_of_lt (hin.trans_lt hlast) .later)
    rcases Nat.lt_or_ge (memRead s.mem (s.dec.start + s.dec.off)).toNat 128 with hb | hb
    · obtain ⟨-, hstep, -⟩ := finalClass_of_lt hb
      have hmove := (decMove_of_class hfetch hstep).trans (exec_decFinal_of_lt hlast hst hin hb)
      rw [decodeLoop_of_lt _ _ _ _ hb] at hk
      obtain rfl : k = 0 := Nat.left_eq_add.mp hk
      exact doneExactlyFrom_succ (not_decDone_of_busy (.inr hst)) hmove (decDone_exactlyFrom_zero rfl)
    · obtain ⟨-, hstep, -⟩ := contClass_of_ge hb
      have hmove := (decMove_of_class hfetch hstep).trans (exec_decCont_of_ge hlast hst hin hb)
      rw [decodeLoop_of_ge _ _ _ _ hb] at hk
      obtain ⟨k, rfl⟩ : ∃ j, k = j + 1 :=
        Nat.exists_eq_add_of_le' (Nat.le_of_add_le_add_left (hk ▸ decodeLoop_le_off ..))
      have hk' := hk.trans (Nat.add_right_comm s.dec.off k 1)
      exact doneExactlyFrom_succ (not_decDone_of_busy (.inr hst)) hmove
        (ih hlast hst (by simp only; omega) hk')

/-- From `FIRST` the moves are one more than the offset that `DECODE` ends with. -/
theorem decDone_exactlyFrom_first {s : State} (hlast : s.dec.last < 2 ^ s.params.aw) (hst : s.dec.st = .first) :
    DoneExactlyFrom .dec DecDone
      ((decodeRange s.params.decOvf s.mem s.dec.start s.dec.last s.dec.acc s.draws).off + 1) s := by
  have hbusy := not_decDone_of_busy (.inl hst)
  rcases Nat.lt_or_ge s.dec.last s.dec.start with hout | hin
  · have hmove := (decMove_of_fetch (decFetch_first_of_oob hst hout)).trans (exec_decOob0_of_out hst hout)
    rw [decodeRange_of_out _ _ _ hout]
    exact doneExactlyFrom_succ hbusy hmove (decDone_exactlyFrom_zero rfl)
  · have hfetch := (decFetch_first_of_inb hst hin).trans (decFetchAt_of_lt (hin.trans_lt hlast) .first)
    rcases Nat.lt_or_ge (memRead s.mem s.dec.start).toNat 240 with hb | hb
    · obtain ⟨-, hstep, -⟩ := singleClass_of_lt hb
      have hmove := (decMove_of_class hfetch hstep).trans (exec_decSingle_of_lt hlast hst hin hb)
      rw [decodeRange_of_lt _ _ _ hin hb]
      exact doneExactlyFrom_succ hbusy hmove (decDone_exactlyFrom_zero rfl)
    · obtain ⟨-, hstep, -⟩ := prefixClass_of_ge hb
      have hmove := (decMove_of_class hfetch hstep).trans (exec_decPrefix_of_ge hlast hst hin hb)
      have hleft : s.dec.start + 1 + (s.dec.last - s.dec.start) = s.dec.last + 1 := by omega
      rw [decodeRange_of_ge _ _ _ hin hb]
      obtain ⟨k, hk⟩ := Nat.exists_eq_add_of_le (decodeLoop_le_off s.params.decOvf s.mem s.dec.start
        (s.dec.last - s.dec.start) 1 (BitVec.ofNat 64 (memRead s.mem s.dec.start).toNat) s.draws)
      rw [hk, Nat.add_comm 1 k]
      exact doneExactlyFrom_succ hbusy hmove (decDone_exactlyFrom_accum hlast rfl hleft hk)

/-- The bytes read and one more on a failure are one more than the offset that `DECODE` ends with: a success leaves
the offset at its last byte, a failure past it. -/
theorem decodeReads_length_add_failure (o : DecOvf) (m : Memory) (start last : Nat) (stale : Word) (draws : Nat) :
    (decodeReads m start last).length + (if (decodeRange o m start last stale draws).status = .oob then 1 else 0) =
      (decodeRange o m start last stale draws).off + 1 := by
  rw [decodeReads_length_eq_off o m start last stale draws]
  cases (decodeRange o m start last stale draws).status <;> rfl

/-- Settles O50: each move of `ENC` emits a byte; each move of `DEC` moves the offset on, but for the last one. -/
theorem stepCountsOfTheOperations : Obligations.StepCountsOfTheOperations := by
  refine ⟨?encode, ?decode⟩
  case encode =>
    intro v s hrest
    exact ⟨_, exec_encStart_of_rest v hrest, encDone_exactlyFrom_first rfl⟩
  case decode =>
    intro a e s hrest ha he
    have hdone := decDone_exactlyFrom_first (s := decAccept s a e) he rfl
    rw [← decodeReads_length_add_failure] at hdone
    exact ⟨_, _, exec_decStart_of_rest hrest ha he, exec_decode_of_rest hrest ha he, hdone⟩

end Sys2Proof.Machine
end
